-- ==== Sys2Proof/Word.lean ====
section
/-! DEFINITION. The word types of the machine (spec 00_scope.md R6, R8): every value is unsigned. -/

namespace Sys2Proof

/-- A byte: a V register, a timer, a memory cell, an `nn` immediate (00_scope.md R6). -/
abbrev Byte := BitVec 8

/-- A 16-bit word: I, PC, a stack slot, an instruction word (00_scope.md R6). -/
abbrev Word := BitVec 16

/-- A 12-bit address immediate `nnn` (30_encoding.md R61). -/
abbrev Addr12 := BitVec 12

/-- A register number, the 4-bit field `x` or `y` of an instruction word: every value is legal
(30_encoding.md R61, R68). -/
abbrev Reg := BitVec 4

end Sys2Proof
end

