-- ==== Sys2Proof/Syntax.lean ====
section
/-! DEFINITION. The instruction set: the 34 rows of 30_encoding.md R64 and the unknown opcode (40_cycle.md R85), one
constructor per row of spec/opcode_table.json. -/

namespace Sys2Proof

/-- The instructions. `x`, `y` are register numbers, `nn` an 8-bit and `nnn` a 12-bit immediate, `n` a row count
(30_encoding.md R61). -/
inductive Instr where
  /-- `00E0` CLS: clear the display (R130). -/
  | cls
  /-- `00EE` RET: return (R90). -/
  | ret
  /-- `1nnn` JP nnn: jump (R91). -/
  | jp (nnn : Addr12)
  /-- `2nnn` CALL nnn: call (R92). -/
  | call (nnn : Addr12)
  /-- `3xnn` SE Vx, nn: skip if equal (R94). -/
  | seVxNn (x : Reg) (nn : Byte)
  /-- `4xnn` SNE Vx, nn: skip if not equal (R95). -/
  | sneVxNn (x : Reg) (nn : Byte)
  /-- `5xy0` SE Vx, Vy: skip if registers equal (R96). -/
  | seVxVy (x y : Reg)
  /-- `6xnn` LD Vx, nn (R101). -/
  | ldVxNn (x : Reg) (nn : Byte)
  /-- `7xnn` ADD Vx, nn: no flag (R102). -/
  | addVxNn (x : Reg) (nn : Byte)
  /-- `8xy0` LD Vx, Vy (R103). -/
  | ldVxVy (x y : Reg)
  /-- `8xy1` OR Vx, Vy (R104). -/
  | orVxVy (x y : Reg)
  /-- `8xy2` AND Vx, Vy (R105). -/
  | andVxVy (x y : Reg)
  /-- `8xy3` XOR Vx, Vy (R106). -/
  | xorVxVy (x y : Reg)
  /-- `8xy4` ADD Vx, Vy: VF is the carry (R107). -/
  | addVxVy (x y : Reg)
  /-- `8xy5` SUB Vx, Vy: VF is "no borrow" (R108). -/
  | subVxVy (x y : Reg)
  /-- `8xy6` SHR Vx: VF is the old bit 0; `y` is carried and ignored (R109, R69). -/
  | shrVx (x y : Reg)
  /-- `8xy7` SUBN Vx, Vy: VF is "no borrow" (R110). -/
  | subnVxVy (x y : Reg)
  /-- `8xyE` SHL Vx: VF is the old bit 7; `y` is carried and ignored (R111, R69). -/
  | shlVx (x y : Reg)
  /-- `9xy0` SNE Vx, Vy: skip if registers differ (R97). -/
  | sneVxVy (x y : Reg)
  /-- `Annn` LD I, nnn (R120). -/
  | ldINnn (nnn : Addr12)
  /-- `Bnnn` JP V0, nnn: jump to nnn + V0 (R93). -/
  | jpV0 (nnn : Addr12)
  /-- `Cxnn` RND Vx, nn: nn AND a random byte (R112). -/
  | rndVxNn (x : Reg) (nn : Byte)
  /-- `Dxyn` DRW Vx, Vy, n: XOR an n-row sprite, VF is the collision (R131). -/
  | drw (x y : Reg) (n : BitVec 4)
  /-- `Ex9E` SKP Vx: skip if key Vx is down (R140). -/
  | skpVx (x : Reg)
  /-- `ExA1` SKNP Vx: skip if key Vx is up (R141). -/
  | sknpVx (x : Reg)
  /-- `Fx07` LD Vx, DT (R143). -/
  | ldVxDt (x : Reg)
  /-- `Fx0A` LD Vx, K: wait for a key (R142). -/
  | ldVxK (x : Reg)
  /-- `Fx15` LD DT, Vx (R144). -/
  | ldDtVx (x : Reg)
  /-- `Fx18` LD ST, Vx (R145). -/
  | ldStVx (x : Reg)
  /-- `Fx1E` ADD I, Vx: no flag, no mask (R121). -/
  | addIVx (x : Reg)
  /-- `Fx29` LD F, Vx: the address of glyph Vx (R122). -/
  | ldFVx (x : Reg)
  /-- `Fx33` LD B, Vx: decimal digits of Vx to MEM[I..I+2] (R123). -/
  | ldBVx (x : Reg)
  /-- `Fx55` LD [I], Vx: store V0 to Vx (R124). -/
  | ldMemVx (x : Reg)
  /-- `Fx65` LD Vx, [I]: load V0 to Vx (R125). -/
  | ldVxMem (x : Reg)
  /-- The unknown opcode: a word `op` that none of the 34 patterns selects, a no-op (R66, R85). -/
  | unknown (op : Word)
deriving DecidableEq, Repr

end Sys2Proof
end

