-- ==== Sys2Proof/WellFormed.lean ====
section
/-! DEFINITION. Which terms of `Instr` stand for an instruction. Every field of the 34 patterns is a bit field that may
hold every value (30_encoding.md R68), so the one check is on the unknown opcode: its word must be one of the words of
30_encoding.md R66. -/

namespace Sys2Proof

/-- The table of 30_encoding.md R66: the words that are unknown, by their top nibble. -/
def unknownWord (op : Word) : Bool :=
  let n := op.extractLsb' 0 4
  let kk := op.extractLsb' 0 8
  match (op.extractLsb' 12 4).toNat with
  | 0x0 => op != 0x00E0 && op != 0x00EE
  | 0x5 => n != 0x0
  | 0x8 => [0x8#4, 0x9#4, 0xA#4, 0xB#4, 0xC#4, 0xD#4, 0xF#4].contains n
  | 0x9 => n != 0x0
  | 0xE => kk != 0x9E && kk != 0xA1
  | 0xF => !([0x07#8, 0x0A#8, 0x15#8, 0x18#8, 0x1E#8, 0x29#8, 0x33#8, 0x55#8, 0x65#8].contains kk)
  | _ => false

/-- An instruction is well formed when it stands for exactly the words that decode to it: a word that one of the 34
patterns selects is not an unknown opcode (30_encoding.md R65, R66). -/
def Instr.wf : Instr → Bool
  | .unknown op => unknownWord op
  | .cls | .ret | .jp _ | .call _ | .seVxNn _ _ | .sneVxNn _ _ | .seVxVy _ _ | .ldVxNn _ _ | .addVxNn _ _
  | .ldVxVy _ _ | .orVxVy _ _ | .andVxVy _ _ | .xorVxVy _ _ | .addVxVy _ _ | .subVxVy _ _ | .shrVx _ _
  | .subnVxVy _ _ | .shlVx _ _ | .sneVxVy _ _ | .ldINnn _ | .jpV0 _ | .rndVxNn _ _ | .drw _ _ _ | .skpVx _
  | .sknpVx _ | .ldVxDt _ | .ldVxK _ | .ldDtVx _ | .ldStVx _ | .addIVx _ | .ldFVx _ | .ldBVx _ | .ldMemVx _
  | .ldVxMem _ => true

end Sys2Proof
end

