-- ==== Sys2Proof/Decode.lean ====
section
/-! DEFINITION. From bits to instructions and back: the fields (30_encoding.md R61), the decoder (R63 to R66), the
encoder, the opcode map as the table R64 gives it, and the words on which the source's prose and table differ (R67). -/

namespace Sys2Proof

/-! ### Fields (R61) -/

/-- The primary opcode, `op[15:12]` (R61). -/
def fieldTop (op : Word) : BitVec 4 := op.extractLsb' 12 4
/-- The register number `x`, `op[11:8]` (R61). -/
def fieldX (op : Word) : Reg := op.extractLsb' 8 4
/-- The register number `y`, `op[7:4]` (R61). -/
def fieldY (op : Word) : Reg := op.extractLsb' 4 4
/-- The bottom nibble `n`, `op[3:0]` (R61). -/
def fieldN (op : Word) : BitVec 4 := op.extractLsb' 0 4
/-- The bottom byte `nn`, `op[7:0]` (R61). -/
def fieldNn (op : Word) : Byte := op.extractLsb' 0 8
/-- The address immediate `nnn`, `op[11:0]` (R61). -/
def fieldNnn (op : Word) : Addr12 := op.extractLsb' 0 12

/-! ### The decoder -/

/-- The `8xy_` family: the bottom nibble selects (R65). -/
def decodeTop8 (op : Word) : Instr :=
  let x := fieldX op
  let y := fieldY op
  let n := fieldN op
  if n = 0x0 then .ldVxVy x y
  else if n = 0x1 then .orVxVy x y
  else if n = 0x2 then .andVxVy x y
  else if n = 0x3 then .xorVxVy x y
  else if n = 0x4 then .addVxVy x y
  else if n = 0x5 then .subVxVy x y
  else if n = 0x6 then .shrVx x y
  else if n = 0x7 then .subnVxVy x y
  else if n = 0xE then .shlVx x y
  else .unknown op

/-- The `Fx__` family: the bottom byte selects (R65). -/
def decodeTopF (op : Word) : Instr :=
  let x := fieldX op
  let kk := fieldNn op
  if kk = 0x07 then .ldVxDt x
  else if kk = 0x0A then .ldVxK x
  else if kk = 0x15 then .ldDtVx x
  else if kk = 0x18 then .ldStVx x
  else if kk = 0x1E then .addIVx x
  else if kk = 0x29 then .ldFVx x
  else if kk = 0x33 then .ldBVx x
  else if kk = 0x55 then .ldMemVx x
  else if kk = 0x65 then .ldVxMem x
  else .unknown op

/-- Decode one instruction word: a pure function of its 16 bits, defined on every word (R63, R65, R66). The top nibble
selects the family; then all of `op[11:0]` for top 0, the bottom nibble for tops 5, 8 and 9, the bottom byte for tops E
and F. Words on which the source's prose would differ are unknown (R67, log entry 7). -/
def decodeWord (op : Word) : Instr :=
  let top := fieldTop op
  let x := fieldX op
  let y := fieldY op
  let nn := fieldNn op
  let nnn := fieldNnn op
  if top = 0x0 then
    if nnn = 0x0E0 then .cls else if nnn = 0x0EE then .ret else .unknown op
  else if top = 0x1 then .jp nnn
  else if top = 0x2 then .call nnn
  else if top = 0x3 then .seVxNn x nn
  else if top = 0x4 then .sneVxNn x nn
  else if top = 0x5 then if fieldN op = 0x0 then .seVxVy x y else .unknown op
  else if top = 0x6 then .ldVxNn x nn
  else if top = 0x7 then .addVxNn x nn
  else if top = 0x8 then decodeTop8 op
  else if top = 0x9 then if fieldN op = 0x0 then .sneVxVy x y else .unknown op
  else if top = 0xA then .ldINnn nnn
  else if top = 0xB then .jpV0 nnn
  else if top = 0xC then .rndVxNn x nn
  else if top = 0xD then .drw x y (fieldN op)
  else if top = 0xE then
    if nn = 0x9E then .skpVx x else if nn = 0xA1 then .sknpVx x else .unknown op
  else decodeTopF op

/-- Why bytes do not decode. No word is rejected (R66), so this is the one reason. -/
inductive DecodeError where
  /-- Fewer than the two bytes of an instruction word (R60). Raised by `decodeBytes`; safe: no instruction is read. -/
  | truncated
deriving DecidableEq, Repr

/-- Compose two bytes, the one at the lower address first, as a big-endian word (20_memory.md R43). -/
def wordOfBytes (hi lo : Byte) : Word := hi ++ lo

/-- Decode the instruction at the front of a list of bytes and give the rest. Total: it rejects, by name, only a list
that holds no whole word. -/
def decodeBytes : List Byte → Except DecodeError (Instr × List Byte)
  | hi :: lo :: rest => .ok (decodeWord (wordOfBytes hi lo), rest)
  | [_] => .error .truncated
  | [] => .error .truncated

/-! ### The encoder -/

/-- The word of an instruction, written from the patterns of R64 (R61, R62). The `y` of `8xy6` and `8xyE` is kept. -/
def encode : Instr → Word
  | .cls => 0x00E0
  | .ret => 0x00EE
  | .jp nnn => 0x1#4 ++ nnn
  | .call nnn => 0x2#4 ++ nnn
  | .seVxNn x nn => 0x3#4 ++ x ++ nn
  | .sneVxNn x nn => 0x4#4 ++ x ++ nn
  | .seVxVy x y => 0x5#4 ++ x ++ y ++ 0x0#4
  | .ldVxNn x nn => 0x6#4 ++ x ++ nn
  | .addVxNn x nn => 0x7#4 ++ x ++ nn
  | .ldVxVy x y => 0x8#4 ++ x ++ y ++ 0x0#4
  | .orVxVy x y => 0x8#4 ++ x ++ y ++ 0x1#4
  | .andVxVy x y => 0x8#4 ++ x ++ y ++ 0x2#4
  | .xorVxVy x y => 0x8#4 ++ x ++ y ++ 0x3#4
  | .addVxVy x y => 0x8#4 ++ x ++ y ++ 0x4#4
  | .subVxVy x y => 0x8#4 ++ x ++ y ++ 0x5#4
  | .shrVx x y => 0x8#4 ++ x ++ y ++ 0x6#4
  | .subnVxVy x y => 0x8#4 ++ x ++ y ++ 0x7#4
  | .shlVx x y => 0x8#4 ++ x ++ y ++ 0xE#4
  | .sneVxVy x y => 0x9#4 ++ x ++ y ++ 0x0#4
  | .ldINnn nnn => 0xA#4 ++ nnn
  | .jpV0 nnn => 0xB#4 ++ nnn
  | .rndVxNn x nn => 0xC#4 ++ x ++ nn
  | .drw x y n => 0xD#4 ++ x ++ y ++ n
  | .skpVx x => 0xE#4 ++ x ++ 0x9E#8
  | .sknpVx x => 0xE#4 ++ x ++ 0xA1#8
  | .ldVxDt x => 0xF#4 ++ x ++ 0x07#8
  | .ldVxK x => 0xF#4 ++ x ++ 0x0A#8
  | .ldDtVx x => 0xF#4 ++ x ++ 0x15#8
  | .ldStVx x => 0xF#4 ++ x ++ 0x18#8
  | .addIVx x => 0xF#4 ++ x ++ 0x1E#8
  | .ldFVx x => 0xF#4 ++ x ++ 0x29#8
  | .ldBVx x => 0xF#4 ++ x ++ 0x33#8
  | .ldMemVx x => 0xF#4 ++ x ++ 0x55#8
  | .ldVxMem x => 0xF#4 ++ x ++ 0x65#8
  | .unknown op => op

/-- The two bytes of an instruction as memory holds them, the byte at the lower address first (20_memory.md R43). -/
def encodeBytes (i : Instr) : List Byte :=
  [(encode i).extractLsb' 8 8, (encode i).extractLsb' 0 8]

/-! ### The opcode map as R64 prints it -/

/-- The rows of the opcode map, named by their patterns; `none` of them is the fallback row of R85. -/
inductive Pattern where
  | p00E0 | p00EE | p1nnn | p2nnn | p3xnn | p4xnn | p5xy0 | p6xnn | p7xnn
  | p8xy0 | p8xy1 | p8xy2 | p8xy3 | p8xy4 | p8xy5 | p8xy6 | p8xy7 | p8xyE | p9xy0
  | pAnnn | pBnnn | pCxnn | pDxyn | pEx9E | pExA1
  | pFx07 | pFx0A | pFx15 | pFx18 | pFx1E | pFx29 | pFx33 | pFx55 | pFx65
deriving DecidableEq, Repr

/-- One row of R64: a word `op` selects it when `op &&& mask = value`. -/
structure OpcodeRow where
  /-- The row's pattern. -/
  pattern : Pattern
  /-- The column "mask". -/
  mask : Word
  /-- The column "match". -/
  value : Word
deriving DecidableEq, Repr

/-- `op` selects the row (R64). -/
abbrev OpcodeRow.selects (r : OpcodeRow) (op : Word) : Prop := op &&& r.mask = r.value

/-- The 34 rows of R64, in its order. -/
def opcodeRows : List OpcodeRow :=
  [⟨.p00E0, 0xFFFF, 0x00E0⟩, ⟨.p00EE, 0xFFFF, 0x00EE⟩, ⟨.p1nnn, 0xF000, 0x1000⟩, ⟨.p2nnn, 0xF000, 0x2000⟩,
   ⟨.p3xnn, 0xF000, 0x3000⟩, ⟨.p4xnn, 0xF000, 0x4000⟩, ⟨.p5xy0, 0xF00F, 0x5000⟩, ⟨.p6xnn, 0xF000, 0x6000⟩,
   ⟨.p7xnn, 0xF000, 0x7000⟩] ++
  [⟨.p8xy0, 0xF00F, 0x8000⟩, ⟨.p8xy1, 0xF00F, 0x8001⟩, ⟨.p8xy2, 0xF00F, 0x8002⟩, ⟨.p8xy3, 0xF00F, 0x8003⟩,
   ⟨.p8xy4, 0xF00F, 0x8004⟩, ⟨.p8xy5, 0xF00F, 0x8005⟩, ⟨.p8xy6, 0xF00F, 0x8006⟩, ⟨.p8xy7, 0xF00F, 0x8007⟩,
   ⟨.p8xyE, 0xF00F, 0x800E⟩, ⟨.p9xy0, 0xF00F, 0x9000⟩] ++
  [⟨.pAnnn, 0xF000, 0xA000⟩, ⟨.pBnnn, 0xF000, 0xB000⟩, ⟨.pCxnn, 0xF000, 0xC000⟩, ⟨.pDxyn, 0xF000, 0xD000⟩,
   ⟨.pEx9E, 0xF0FF, 0xE09E⟩, ⟨.pExA1, 0xF0FF, 0xE0A1⟩] ++
  [⟨.pFx07, 0xF0FF, 0xF007⟩, ⟨.pFx0A, 0xF0FF, 0xF00A⟩, ⟨.pFx15, 0xF0FF, 0xF015⟩, ⟨.pFx18, 0xF0FF, 0xF018⟩,
   ⟨.pFx1E, 0xF0FF, 0xF01E⟩, ⟨.pFx29, 0xF0FF, 0xF029⟩, ⟨.pFx33, 0xF0FF, 0xF033⟩, ⟨.pFx55, 0xF0FF, 0xF055⟩,
   ⟨.pFx65, 0xF0FF, 0xF065⟩]

/-- The row of R64 an instruction belongs to, `none` for the unknown opcode. -/
def Instr.pattern : Instr → Option Pattern
  | .cls => some .p00E0
  | .ret => some .p00EE
  | .jp _ => some .p1nnn
  | .call _ => some .p2nnn
  | .seVxNn _ _ => some .p3xnn
  | .sneVxNn _ _ => some .p4xnn
  | .seVxVy _ _ => some .p5xy0
  | .ldVxNn _ _ => some .p6xnn
  | .addVxNn _ _ => some .p7xnn
  | .ldVxVy _ _ => some .p8xy0
  | .orVxVy _ _ => some .p8xy1
  | .andVxVy _ _ => some .p8xy2
  | .xorVxVy _ _ => some .p8xy3
  | .addVxVy _ _ => some .p8xy4
  | .subVxVy _ _ => some .p8xy5
  | .shrVx _ _ => some .p8xy6
  | .subnVxVy _ _ => some .p8xy7
  | .shlVx _ _ => some .p8xyE
  | .sneVxVy _ _ => some .p9xy0
  | .ldINnn _ => some .pAnnn
  | .jpV0 _ => some .pBnnn
  | .rndVxNn _ _ => some .pCxnn
  | .drw _ _ _ => some .pDxyn
  | .skpVx _ => some .pEx9E
  | .sknpVx _ => some .pExA1
  | .ldVxDt _ => some .pFx07
  | .ldVxK _ => some .pFx0A
  | .ldDtVx _ => some .pFx15
  | .ldStVx _ => some .pFx18
  | .addIVx _ => some .pFx1E
  | .ldFVx _ => some .pFx29
  | .ldBVx _ => some .pFx33
  | .ldMemVx _ => some .pFx55
  | .ldVxMem _ => some .pFx65
  | .unknown _ => none

/-- The 8670 words on which the source's dispatch prose and its table differ, by the test of
93_implementation_defined.md U5 (R67). The table wins: they are unknown (R65). -/
def ambiguousWord (op : Word) : Bool :=
  ((op &&& 0xF000 == 0x5000 || op &&& 0xF000 == 0x9000) && op &&& 0x000F != 0) ||
  (op &&& 0xF000 == 0 && (op &&& 0x000F == 0x0 || op &&& 0x000F == 0xE) && op != 0x00E0 && op != 0x00EE) ||
  (op &&& 0xF000 == 0xE000 && (op &&& 0x000F == 0xE || op &&& 0x000F == 0x1) &&
    op &&& 0x00FF != 0x9E && op &&& 0x00FF != 0xA1)

/-! ### The host's reading of a word -/

/-- The word whose bits the opcode table numbers as `w`: an instruction is one 16-bit word, so its low 16 bits, with
the bits above `nbits` zero. -/
def tableWord (nbits w : Nat) : Word := BitVec.ofNat 16 (w % 2 ^ nbits)

/-- The instruction the decoder reads from the bytes of a table word, laid out big-endian (20_memory.md R43). -/
def decodeTableWord (nbits w : Nat) : Option Instr :=
  match decodeBytes [(tableWord nbits w).extractLsb' 8 8, (tableWord nbits w).extractLsb' 0 8] with
  | .ok (i, _) => some i
  | .error _ => none

end Sys2Proof
end

