-- ==== Sys2Proof/Config.lean ====
section
/-! DEFINITION. What is fixed for the machine (00_scope.md R6) and its one free value, the random byte.

The other parameters of 00_scope.md R7 are arguments: FONT of `State.resetWith`, ROM of `State.load`, KEY and the schedule
of `runOps` (Sys2Proof/Machine/State.lean, Session.lean). -/

namespace Sys2Proof

/-- FONT, the parameter: 80 bytes, glyph d at 5d to 5d + 4 (00_scope.md R6, R7, 10_state.md R31). -/
abbrev Font := Vector Byte 80

end Sys2Proof

namespace Sys2Proof.Config

/-- MEM_SIZE: 4096 bytes, addresses 0x000 to 0xFFF (00_scope.md R6, 20_memory.md R40). -/
def memSize : Nat := 0x1000

/-- FONT_BASE: where the font stands (00_scope.md R6). -/
def fontBase : Nat := 0x050

/-- PROG_BASE: where `load` puts the program, and the reset value of PC (00_scope.md R6). -/
def progBase : Nat := 0x200

/-- ROM_MAX: the longest image `load` takes, 3584 bytes (00_scope.md R6). -/
def romMax : Nat := 3584

/-- RandomByte (10_state.md R25, 42_alu.md R112): the n-th byte the host's generator supplies. A FREE VALUE: it has no
body, so no proof can see what it is, and a statement about it holds for every byte.
DESIGN CHOICE (log entry 1). -/
opaque randomByte : Nat → Byte

end Sys2Proof.Config
end

