-- ==== Sys2Proof/Machine/State.lean ====
section
/-! DEFINITION. The state of CORE: the eleven items of 10_state.md R10 as plain data, the parameter FONT carried beside
them, and the model's own count of random bytes drawn; the five faults (60_exceptions.md R150), the reasons of refusal, and the state after reset (R30, R180). -/

namespace Sys2Proof.Machine

/-- The five fatal faults (60_exceptions.md R150). The spec describes their entry in full (R155 to R157): the cycle that
raises one writes it into FAULT and the core is frozen. So a fault is TAKEN, as a next state (`State.raise` in
Machine/Ops.lean), and no step answers `Host.Outcome.fault`. Log entry 6. -/
inductive Fault where
  /-- Code 1. Raised by `2nnn` when SP is 16 (R151). Safe: nothing but PC and FAULT changes, and the core is frozen. -/
  | stackOverflow
  /-- Code 2. Raised by `00EE` when SP is 0 (R152). Safe: nothing but PC and FAULT changes, and the core is frozen. -/
  | stackUnderflow
  /-- Code 3. Raised by the fetch of a cycle when PC + 1 is above 0xFFF (R153). Safe: nothing but FAULT changes, and the
  core is frozen. -/
  | fetchOutOfRange
  /-- Code 4. Raised by `Dxyn`, `Fx33`, `Fx55`, `Fx65` for an effective address above 0xFFF (R154). Safe: nothing but PC
  and FAULT changes, and the core is frozen. -/
  | dataOutOfRange
  /-- Code 5. Raised by `Ex9E`, `ExA1` when V[x] is above 15 (R158). Safe: nothing but PC and FAULT changes, and the core
  is frozen. -/
  | keyIndexOutOfRange
deriving DecidableEq, Repr

/-- Reasons a step may be refused. No meaning of this model refuses. -/
inductive Refusal where
  /-- An instruction that has no meaning yet. Raised by a refused arm of `exec` only; there is none. Safe: nothing runs. -/
  | notModelled (mnemonic : String)
deriving DecidableEq, Repr

/-- FAULT, the fault record (10_state.md R26). -/
structure FaultRecord where
  /-- FAULT.code as a name; `none` is code 0, "not faulted". Its number is `FaultRecord.code`. -/
  cause : Option Fault
  /-- FAULT.pc: the address the faulting instruction was fetched from. -/
  pc : Word
  /-- FAULT.opcode: the faulting instruction word, 0x0000 when the fetch itself faulted. -/
  opcode : Word
deriving DecidableEq, Repr

/-- MEM as data (10_state.md R21): the addresses whose byte differs from what memory holds after reset, with their bytes,
addresses strictly rising. What an unlisted address reads as is `Memory.resetByte` of FONT (Machine/Memory.lean, log
entry 9). -/
abbrev Memory := List Host.Cell

/-- DISP (10_state.md R22): 32 rows of 64 pixels, `true` is lit. -/
abbrev Display := Vector (Vector Bool 64) 32

/-- The whole state (10_state.md R10). -/
structure State where
  /-- V[0] to V[15]; V[15] is VF, the only flag (R11, R12). -/
  v : Vector Byte 16
  /-- I, the index register (R13). -/
  i : Word
  /-- PC (R14): between cycles the address of the next instruction; while an instruction executes, its own address
  plus 2. -/
  pc : Word
  /-- SP (R17): how many return addresses are on the stack, 0 to 16. -/
  sp : Fin 17
  /-- STACK[0] to STACK[15] (R18). -/
  stack : Vector Word 16
  /-- DT, the delay timer (R19). -/
  dt : Byte
  /-- ST, the sound timer (R20). -/
  st : Byte
  /-- MEM (R21). -/
  mem : Memory
  /-- DISP (R22). -/
  disp : Display
  /-- KEY[0] to KEY[15], the host's key levels, `true` is pressed (R24). -/
  key : Vector Bool 16
  /-- FAULT (R26). -/
  fault : FaultRecord
  /-- THE MODEL'S OWN, not the spec's: how many random bytes have been drawn. The next is
  `Config.randomByte randomDraws` (R25, log entry 1). -/
  randomDraws : Nat
  /-- FONT, A PARAMETER, not the spec's state: R7 has the model take it as an argument, R29 calls it configuration. It is
  carried here because `step` takes no other argument (log entry 15). No operation writes it, so a statement about every
  state is one about every font. -/
  font : Font
deriving DecidableEq, Repr

/-- The blank display (R30). -/
def Display.blank : Display := Vector.replicate 32 (Vector.replicate 64 false)

/-- The state right after reset with the FONT given, all keys up: the table of 10_state.md R30. Memory lists nothing, so it
reads as zero and the font. The spec gives KEY no reset value; all keys up is a DESIGN CHOICE (log entry 2), as is the
count 0 of random draws (log entry 1). -/
def State.resetWith (font : Font) : State where
  v := Vector.replicate 16 0
  i := 0
  pc := BitVec.ofNat 16 Config.progBase
  sp := 0
  stack := Vector.replicate 16 0
  dt := 0
  st := 0
  mem := []
  disp := Display.blank
  key := Vector.replicate 16 false
  fault := ⟨none, 0, 0⟩
  randomDraws := 0
  font := font

/-- The state right after reset with the default FONT (R31, log entry 3). -/
def State.reset : State := State.resetWith defaultFont

end Sys2Proof.Machine
end

