-- ==== Sys2Proof/Machine/Memory.lean ====
section
/-! DEFINITION. MEM (20_memory.md R40 to R47): what it holds at reset, reading and writing one byte, and the runs of
bytes the instructions move, in one canonical form. -/

namespace Sys2Proof.Machine

/-- What memory holds at an address after `reset`: FONT at 0x050 to 0x09F, zero elsewhere (10_state.md R30,
20_memory.md R41). This is what an unlisted address reads as (log entry 9). -/
def Memory.resetByte (font : Font) (a : Nat) : Byte :=
  if h : Config.fontBase ≤ a ∧ a - Config.fontBase < 80 then font[a - Config.fontBase] else 0

/-- The canonical form: addresses strictly rising and inside MEM, and no entry equal to what an unlisted address reads
as, so that equal memories are equal lists. -/
abbrev Memory.wf (font : Font) (m : Memory) : Prop :=
  m.Pairwise (fun p q => p.1 < q.1) ∧ ∀ p ∈ m, p.1 < Config.memSize ∧ p.2 ≠ Memory.resetByte font p.1

/-- The byte last written at an address, or what reset put there (20_memory.md R40). -/
def Memory.read (font : Font) : Memory → Nat → Byte
  | [], a => Memory.resetByte font a
  | (b, w) :: m, a => if a = b then w else Memory.read font m a

/-- Put a byte before the entries of higher addresses, unless an unlisted address reads as that byte. -/
def Memory.enter (font : Font) (a : Nat) (x : Byte) (m : Memory) : Memory :=
  if x = Memory.resetByte font a then m else (a, x) :: m

/-- Store one byte, keeping the canonical form. -/
def Memory.write (font : Font) : Memory → Nat → Byte → Memory
  | [], a, x => Memory.enter font a x []
  | (b, w) :: m, a, x =>
    if a < b then Memory.enter font a x ((b, w) :: m)
    else if a = b then Memory.enter font a x m
    else (b, w) :: Memory.write font m a x

/-- A run of `len` bytes from `base` lies inside MEM. The sum is an unbounded integer (R47), and the empty run lies
inside wherever `base` is (44_display.md R131: a sprite of no rows reads nothing). -/
def inMemory (base len : Nat) : Bool := len == 0 || base + len ≤ Config.memSize

/-- Read `len` bytes at ascending addresses (R45). -/
def Memory.readRun (font : Font) (m : Memory) (base : Nat) : Nat → List Byte
  | 0 => []
  | len + 1 => Memory.read font m base :: Memory.readRun font m (base + 1) len

/-- Store bytes at ascending addresses (R45). -/
def Memory.writeRun (font : Font) (m : Memory) (base : Nat) : List Byte → Memory
  | [] => m
  | x :: xs => Memory.writeRun font (Memory.write font m base x) (base + 1) xs

end Sys2Proof.Machine
end

