-- ==== Sys2Proof/Machine/Ops.lean ====
section
/-! DEFINITION. The named operations over registers, stack, memory and pixels that every meaning is written in, and taking
a fault (60_exceptions.md R155, R156). -/

namespace Sys2Proof.Machine

/-- What a meaning answers. -/
abbrev Result := Host.Outcome State Fault Refusal

/-! ### Registers (10_state.md R11, R13, R14) -/

/-- `V[x]`. -/
def State.getV (s : State) (x : Reg) : Byte := s.v[x.toNat]'x.isLt

/-- `V[x] <- b`. -/
def State.setV (s : State) (x : Reg) (b : Byte) : State := { s with v := s.v.set x.toNat b x.isLt }

/-- `I <- w`. -/
def State.setI (s : State) (w : Word) : State := { s with i := w }

/-- `PC <- w`: never masked, never forced even (R16). -/
def State.setPc (s : State) (w : Word) : State := { s with pc := w }

/-- `DT <- b`. -/
def State.setDt (s : State) (b : Byte) : State := { s with dt := b }

/-- `ST <- b`. -/
def State.setSt (s : State) (b : Byte) : State := { s with st := b }

/-- Skip the next instruction when the condition holds: add 2 to the advanced PC (40_cycle.md R82, 41_flow.md R94). -/
def State.skipIf (s : State) (c : Bool) : State := if c then s.setPc (s.pc + 2) else s

/-! ### The call stack (R17, R18) -/

/-- Push the advanced PC and add 1 to SP; `none` when all 16 slots are in use (41_flow.md R92). -/
def State.push (s : State) : Option State :=
  if h : s.sp.val < 16 then
    some { s with stack := s.stack.set s.sp.val s.pc h, sp := ⟨s.sp.val + 1, by omega⟩ }
  else none

/-- Subtract 1 from SP and give the slot it then names, left holding its value; `none` when the stack is empty
(41_flow.md R90). -/
def State.pop (s : State) : Option (Word × State) :=
  if h : 0 < s.sp.val then
    some (s.stack[s.sp.val - 1]'(by omega), { s with sp := ⟨s.sp.val - 1, by omega⟩ })
  else none

/-! ### Memory (20_memory.md R45 to R47) -/

/-- `MemRead(a, 1)`: `none` where no memory is (R46). -/
def State.readByte (s : State) (a : Nat) : Option Byte :=
  if a < Config.memSize then some (Memory.read s.font s.mem a) else none

/-- Read a run of bytes; `none`, before any access, when one of them is outside MEM (R46, 43_index_memory.md R126). -/
def State.loadRun (s : State) (base len : Nat) : Option (List Byte) :=
  if inMemory base len then some (Memory.readRun s.font s.mem base len) else none

/-- Store a run of bytes; `none`, before any write, when one of them is outside MEM (R46, R126). -/
def State.storeRun (s : State) (base : Nat) (xs : List Byte) : Option State :=
  if inMemory base xs.length then some { s with mem := Memory.writeRun s.font s.mem base xs } else none

/-- The instruction word at `a`, big-endian; `none` when one of its two bytes is outside MEM (R43, 40_cycle.md R81). -/
def State.fetchWord (s : State) (a : Nat) : Option Word :=
  match s.readByte a, s.readByte (a + 1) with
  | some hi, some lo => some (wordOfBytes hi lo)
  | _, _ => none

/-! ### Pixels (R22, 44_display.md) -/

/-- `DISP[r][c]` of a display. -/
def Display.pixel (d : Display) (r : Fin 32) (c : Fin 64) : Bool := d[r.val][c.val]

/-- `DISP[r][c] <- b` of a display. -/
def Display.setPixel (d : Display) (r : Fin 32) (c : Fin 64) (b : Bool) : Display :=
  d.set r.val (d[r.val].set c.val b)

/-- `DISP[r][c]`. -/
def State.pixel (s : State) (r : Fin 32) (c : Fin 64) : Bool := Display.pixel s.disp r c

/-! ### Keys (R24) -/

/-- `KEY[k]`. -/
def State.keyDown (s : State) (k : Fin 16) : Bool := s.key[k.val]

/-- The least number of a key that is down (45_keys_timers.md R142). -/
def State.firstKey (s : State) : Option (Fin 16) := (List.finRange 16).find? s.keyDown

/-! ### The random source (R25) -/

/-- Draw one random byte: the free value of this draw, and the state in which it is drawn (R25, R112, log entry 1). -/
def State.drawRandom (s : State) : Byte × State :=
  (Config.randomByte s.randomDraws, { s with randomDraws := s.randomDraws + 1 })

/-! ### Faults (60_exceptions.md R155 to R157) -/

/-- FAULT.code (R26, R150): 0 when not faulted, else the fault's code. -/
def FaultRecord.code (f : FaultRecord) : BitVec 3 :=
  match f.cause with
  | none => 0
  | some .stackOverflow => 1
  | some .stackUnderflow => 2
  | some .fetchOutOfRange => 3
  | some .dataOutOfRange => 4
  | some .keyIndexOutOfRange => 5

/-- "Faulted" means FAULT.code is not 0 (R26). -/
def State.faulted (s : State) : Bool := s.fault.cause.isSome

/-- `raise F` (R155): write FAULT, and nothing else. No handler is entered, nothing is pushed. There is no return from a
fault (R157): only the host's `reset` (Machine/Session.lean) clears FAULT. -/
def State.raise (s : State) (f : Fault) (addr opcode : Word) : State := { s with fault := ⟨some f, addr, opcode⟩ }

/-- Raise a fault in the execution of an instruction: PC holds the advanced value, so the instruction was fetched from
PC minus 2, and its word is its encoding (R155, R156, log entry 8). -/
def State.raiseIn (s : State) (f : Fault) (i : Instr) : State := s.raise f (s.pc - 2) (encode i)

/-- Answer the state an operation gives, or take the fault when it gives none: the test comes before every write, so the
fault leaves the state as it was, but for FAULT (R84, R156). -/
def orRaise (s : State) (f : Fault) (i : Instr) (r : Option State) : Result :=
  match r with
  | some t => .next t
  | none => .next (s.raiseIn f i)

end Sys2Proof.Machine
end

