-- ==== Sys2Proof/Machine/Operands.lean ====
section
/-! DEFINITION. The operand forms (30_encoding.md R68): registers by number (`State.getV`, in Machine/Ops.lean), immediates zero-extended and
unscaled, and the one addressing mode, "I plus a small constant offset" (43_index_memory.md, R126). -/

namespace Sys2Proof.Machine

/-- `zext_16(nnn)`: an address immediate (R68). -/
def zextAddr (nnn : Addr12) : Word := nnn.setWidth 16

/-- `zext_16(b)`: a byte widened (R8). -/
def zextByte (b : Byte) : Word := b.setWidth 16

/-- The effective address of byte `k` of an access through I: an unbounded integer, not reduced (20_memory.md R47). -/
def State.effAddr (s : State) (k : Nat) : Nat := s.i.toNat + k

/-- How many registers V[0] to V[x] are: x + 1 (R69, R124). -/
def countUpTo (x : Reg) : Nat := x.toNat + 1

/-- The bytes V[0] to V[x], V[0] first (R124). -/
def State.regsUpTo (s : State) (x : Reg) : List Byte := s.v.toList.take (countUpTo x)

/-- `V[k] <- b` for the bytes `b` in turn, `k` rising from the number given (R125). -/
def State.loadRegs (s : State) : Nat → List Byte → State
  | _, [] => s
  | k, b :: bs => State.loadRegs (s.setV (BitVec.ofNat 4 k) b) (k + 1) bs

/-- The decimal digits of a byte, hundreds first (R123). -/
def bcdDigits (b : Byte) : List Byte :=
  [BitVec.ofNat 8 (b.toNat / 100), BitVec.ofNat 8 (b.toNat / 10 % 10), BitVec.ofNat 8 (b.toNat % 10)]

/-- The key number in a register, `none` when it is above 15 (45_keys_timers.md R140). -/
def keyIndex (b : Byte) : Option (Fin 16) := if h : b.toNat < 16 then some ⟨b.toNat, h⟩ else none

/-- How many rows of a sprite are on the screen: rows at positions 32 and beyond are clipped (44_display.md R131). -/
def spriteRows (vy : Nat) (n : BitVec 4) : Nat := if vy > 31 then 0 else min n.toNat (32 - vy)

/-- Sprite bit `j` of a row byte, bit 7 the leftmost (44_display.md R133).
PRESUMED (log entry 4): the spec marks the bit order as general knowledge. This is the one place it enters. -/
def spriteBit (b : Byte) (j : Nat) : Bool := b.getLsbD (7 - j)

end Sys2Proof.Machine
end

