-- ==== Sys2Proof/Machine/Flags.lean ====
section
/-! DEFINITION. The flag VF (10_state.md R12): what the ALU instructions compute for it, and the law that it is written
last (42_alu.md R100). The collision flag of `Dxyn` is gathered pixel by pixel in Machine/Display.lean. -/

namespace Sys2Proof.Machine

/-- VF, which is V[15] (R12). -/
def regF : Reg := 0xF

/-- A flag as the byte VF holds: 1 or 0 (R12). -/
def flagByte (f : Bool) : Byte := if f then 1 else 0

/-- Carry out of bit 7: the 9-bit sum is above 255 (R107). -/
def carryFlag (a b : Byte) : Bool := a.toNat + b.toNat > 255

/-- No borrow: the minuend is at least the subtrahend (R108, R110). -/
def noBorrowFlag (a b : Byte) : Bool := a.toNat ≥ b.toNat

/-- The bit a shift right by one shifts out: old bit 0 (R109). -/
def shiftRightFlag (a : Byte) : Bool := a.getLsbD 0

/-- The bit a shift left by one shifts out: old bit 7 (R111). -/
def shiftLeftFlag (a : Byte) : Bool := a.getLsbD 7

/-- Write the result to V[x], then the flag to V[15]: the flag write is the last, so for x = 0xF it wins (R100). -/
def State.setResultFlag (s : State) (x : Reg) (result : Byte) (flag : Bool) : State :=
  (s.setV x result).setV regF (flagByte flag)

end Sys2Proof.Machine
end

