-- ==== Sys2Proof/Machine/Alu.lean ====
section
/-! DEFINITION. Register load, arithmetic, logic, shifts and random (42_alu.md R100 to R112). None changes PC, none
faults; operands are read before any write (70_reset_and_hazards.md R190). -/

namespace Sys2Proof.Machine

/-- `6xnn` (R101). -/
def execLdVxNn (x : Reg) (nn : Byte) (s : State) : Result := .next (s.setV x nn)

/-- `7xnn` (R102): modulo 256, no flag. -/
def execAddVxNn (x : Reg) (nn : Byte) (s : State) : Result := .next (s.setV x (s.getV x + nn))

/-- `8xy0` (R103). -/
def execLdVxVy (x y : Reg) (s : State) : Result := .next (s.setV x (s.getV y))

/-- `8xy1` (R104). -/
def execOrVxVy (x y : Reg) (s : State) : Result := .next (s.setV x (s.getV x ||| s.getV y))

/-- `8xy2` (R105). -/
def execAndVxVy (x y : Reg) (s : State) : Result := .next (s.setV x (s.getV x &&& s.getV y))

/-- `8xy3` (R106). -/
def execXorVxVy (x y : Reg) (s : State) : Result := .next (s.setV x (s.getV x ^^^ s.getV y))

/-- `8xy4` (R107). -/
def execAddVxVy (x y : Reg) (s : State) : Result :=
  .next (s.setResultFlag x (s.getV x + s.getV y) (carryFlag (s.getV x) (s.getV y)))

/-- `8xy5` (R108). -/
def execSubVxVy (x y : Reg) (s : State) : Result :=
  .next (s.setResultFlag x (s.getV x - s.getV y) (noBorrowFlag (s.getV x) (s.getV y)))

/-- `8xy6` (R109): Vy is neither read nor written. -/
def execShrVx (x _y : Reg) (s : State) : Result :=
  .next (s.setResultFlag x (s.getV x >>> 1) (shiftRightFlag (s.getV x)))

/-- `8xy7` (R110). -/
def execSubnVxVy (x y : Reg) (s : State) : Result :=
  .next (s.setResultFlag x (s.getV y - s.getV x) (noBorrowFlag (s.getV y) (s.getV x)))

/-- `8xyE` (R111): Vy is neither read nor written. -/
def execShlVx (x _y : Reg) (s : State) : Result :=
  .next (s.setResultFlag x (s.getV x <<< 1) (shiftLeftFlag (s.getV x)))

/-- `Cxnn` (R112): one random byte is drawn, whatever nn is. -/
def execRndVxNn (x : Reg) (nn : Byte) (s : State) : Result :=
  let (r, t) := s.drawRandom
  .next (t.setV x (nn &&& r))

end Sys2Proof.Machine
end

