-- ==== Sys2Proof/Machine/Display.lean ====
section
/-! DEFINITION. The display instructions (44_display.md R130 to R133): clear, and the sprite draw by XOR with clipping and
collision. -/

namespace Sys2Proof.Machine

/-- `00E0` (R130): every pixel to 0. -/
def execCls (s : State) : Result := .next { s with disp := Display.blank }

/-- Draw one sprite bit at row `r`, column `col`, into a display and the collision seen so far: a column beyond 63 is
skipped (R131). -/
def drawBit (r : Fin 32) (col : Nat) (bit : Bool) (acc : Display × Bool) : Display × Bool :=
  if h : col < 64 then
    let old := Display.pixel acc.1 r ⟨col, h⟩
    (Display.setPixel acc.1 r ⟨col, h⟩ (xor old bit), acc.2 || (bit && old))
  else acc

/-- Draw one row of a sprite: bits `j` = 0 to 7 at columns `vx + j`, no wrap (R131). -/
def drawRow (r : Fin 32) (vx : Nat) (b : Byte) (acc : Display × Bool) : Display × Bool :=
  (List.range 8).foldl (fun acc j => drawBit r (vx + j) (spriteBit b j) acc) acc

/-- Draw the rows of a sprite from row `r` down; a row off the screen ends the draw (R131). -/
def drawRows (vx : Nat) : Nat → List Byte → Display × Bool → Display × Bool
  | _, [], acc => acc
  | r, b :: bs, acc => if h : r < 32 then drawRows vx (r + 1) bs (drawRow ⟨r, h⟩ vx b acc) else acc

/-- The display and the collision bit become those of a finished draw; VF is written once, last (R131, R190). -/
def State.setDrawn (s : State) (p : Display × Bool) : State :=
  { s with disp := p.1 }.setV regF (flagByte p.2)

/-- `Dxyn` (R131): Vx, Vy and I are read before VF is touched; only the rows on the screen are read from memory; VF ends
as the collision, on every execution. Or DataOutOfRange (R154). -/
def execDrw (x y : Reg) (n : BitVec 4) (s : State) : Result :=
  let vx := (s.getV x).toNat
  let vy := (s.getV y).toNat
  orRaise s .dataOutOfRange (.drw x y n)
    ((s.loadRun (s.effAddr 0) (spriteRows vy n)).map fun rows => s.setDrawn (drawRows vx vy rows (s.disp, false)))

end Sys2Proof.Machine
end

