-- ==== Sys2Proof/Machine/Flow.lean ====
section
/-! DEFINITION. Control transfer (41_flow.md R90 to R97) and the unknown opcode (40_cycle.md R85). On entry PC holds the
instruction's address plus 2 (R82). -/

namespace Sys2Proof.Machine

/-- `00EE` (R90): pop PC, or StackUnderflow (R152). -/
def execRet (s : State) : Result :=
  orRaise s .stackUnderflow .ret (s.pop.map fun p => p.2.setPc p.1)

/-- `1nnn` (R91). -/
def execJp (nnn : Addr12) (s : State) : Result := .next (s.setPc (zextAddr nnn))

/-- `2nnn` (R92): push the advanced PC and jump, or StackOverflow (R151). -/
def execCall (nnn : Addr12) (s : State) : Result :=
  orRaise s .stackOverflow (.call nnn) (s.push.map fun t => t.setPc (zextAddr nnn))

/-- `Bnnn` (R93): always V[0], not reduced to 12 bits. -/
def execJpV0 (nnn : Addr12) (s : State) : Result := .next (s.setPc (zextAddr nnn + zextByte (s.getV 0)))

/-- `3xnn` (R94). -/
def execSeVxNn (x : Reg) (nn : Byte) (s : State) : Result := .next (s.skipIf (s.getV x == nn))

/-- `4xnn` (R95). -/
def execSneVxNn (x : Reg) (nn : Byte) (s : State) : Result := .next (s.skipIf (s.getV x != nn))

/-- `5xy0` (R96). -/
def execSeVxVy (x y : Reg) (s : State) : Result := .next (s.skipIf (s.getV x == s.getV y))

/-- `9xy0` (R97). -/
def execSneVxVy (x y : Reg) (s : State) : Result := .next (s.skipIf (s.getV x != s.getV y))

/-- The unknown opcode (R85): nothing; its fields are not used. -/
def execUnknown (_op : Word) (s : State) : Result := .next s

end Sys2Proof.Machine
end

