-- ==== Sys2Proof/Machine/IndexMemory.lean ====
section
/-! DEFINITION. The index register and the memory instructions (43_index_memory.md R120 to R125). I is never modified by
a store or a load; the range is tested before the first access (R126). -/

namespace Sys2Proof.Machine

/-- `Annn` (R120). -/
def execLdINnn (nnn : Addr12) (s : State) : Result := .next (s.setI (zextAddr nnn))

/-- `Fx1E` (R121): modulo 65536, no mask to 12 bits, no flag. -/
def execAddIVx (x : Reg) (s : State) : Result := .next (s.setI (s.i + zextByte (s.getV x)))

/-- `Fx29` (R122): the font base plus 5 times Vx, all 8 bits of it. -/
def execLdFVx (x : Reg) (s : State) : Result :=
  .next (s.setI (BitVec.ofNat 16 (Config.fontBase + 5 * (s.getV x).toNat)))

/-- `Fx33` (R123): three decimal digits to MEM[I..I+2], or DataOutOfRange (R154). -/
def execLdBVx (x : Reg) (s : State) : Result :=
  orRaise s .dataOutOfRange (.ldBVx x) (s.storeRun (s.effAddr 0) (bcdDigits (s.getV x)))

/-- `Fx55` (R124): V[0] to V[x] to MEM[I..I+x], or DataOutOfRange (R154). -/
def execLdMemVx (x : Reg) (s : State) : Result :=
  orRaise s .dataOutOfRange (.ldMemVx x) (s.storeRun (s.effAddr 0) (s.regsUpTo x))

/-- `Fx65` (R125): MEM[I..I+x] to V[0] to V[x], or DataOutOfRange (R154). -/
def execLdVxMem (x : Reg) (s : State) : Result :=
  orRaise s .dataOutOfRange (.ldVxMem x) ((s.loadRun (s.effAddr 0) (countUpTo x)).map (s.loadRegs 0))

end Sys2Proof.Machine
end

