-- ==== Sys2Proof/Machine/KeysTimers.lean ====
section
/-! DEFINITION. The key and timer instructions (45_keys_timers.md R140 to R145). KEY is only read. -/

namespace Sys2Proof.Machine

/-- `Ex9E` (R140): skip if the key whose number V[x] holds is down, or KeyIndexOutOfRange (R158). -/
def execSkpVx (x : Reg) (s : State) : Result :=
  orRaise s .keyIndexOutOfRange (.skpVx x) ((keyIndex (s.getV x)).map fun k => s.skipIf (s.keyDown k))

/-- `ExA1` (R141): skip if the key whose number V[x] holds is up, or KeyIndexOutOfRange (R158). -/
def execSknpVx (x : Reg) (s : State) : Result :=
  orRaise s .keyIndexOutOfRange (.sknpVx x) ((keyIndex (s.getV x)).map fun k => s.skipIf (!s.keyDown k))

/-- `Fx0A` (R142): the least key that is down, or PC back to this instruction. -/
def execLdVxK (x : Reg) (s : State) : Result :=
  match s.firstKey with
  | some k => .next (s.setV x (BitVec.ofNat 8 k.val))
  | none => .next (s.setPc (s.pc - 2))

/-- `Fx07` (R143). -/
def execLdVxDt (x : Reg) (s : State) : Result := .next (s.setV x s.dt)

/-- `Fx15` (R144). -/
def execLdDtVx (x : Reg) (s : State) : Result := .next (s.setDt (s.getV x))

/-- `Fx18` (R145). -/
def execLdStVx (x : Reg) (s : State) : Result := .next (s.setSt (s.getV x))

end Sys2Proof.Machine
end

