-- ==== Sys2Proof/Machine/Fetch.lean ====
section
/-! DEFINITION. The fetch of a cycle and the PC advance (40_cycle.md R80 to R82), and the host's placing of a word where
the fetch reads it. -/

namespace Sys2Proof.Machine

/-- The instruction word a cycle fetches: the two bytes at PC and PC + 1; `none` when PC + 1 is above 0xFFF (R81). -/
def State.fetch (s : State) : Option Word := s.fetchWord s.pc.toNat

/-- The PC advance, before execution (R82). -/
def State.advance (s : State) : State := s.setPc (s.pc + 2)

/-- FetchOutOfRange: FAULT.pc is PC, FAULT.opcode is 0x0000, PC is not advanced (R81, R153). -/
def State.raiseFetch (s : State) : State := s.raise .fetchOutOfRange s.pc 0

/-- A state that can fetch: FAULT cleared where it was set, and PC at 0x200 where no word is (log entry 10). -/
def State.readyToFetch (s : State) : State :=
  { s with
    fault := if s.faulted then ⟨none, 0, 0⟩ else s.fault
    pc := if s.pc.toNat + 1 < Config.memSize then s.pc else BitVec.ofNat 16 Config.progBase }

/-- Store a word big-endian at PC (20_memory.md R43). -/
def State.storeWordAtPc (s : State) (w : Word) : State :=
  { s with mem := Memory.writeRun s.font s.mem s.pc.toNat [w.extractLsb' 8 8, w.extractLsb' 0 8] }

end Sys2Proof.Machine
end

