-- ==== Sys2Proof/Machine/Step.lean ====
section
/-! DEFINITION. One step of CORE, the operation `cycle()` (40_cycle.md R80). -/

namespace Sys2Proof.Machine

/-- `cycle()` (R80): nothing when faulted (R157); else fetch, advance PC by 2, execute; FetchOutOfRange when the fetch
has no word (R153). -/
def step (s : State) : Host.Outcome State Fault Refusal :=
  if s.faulted then .next s
  else
    match s.fetch with
    | none => .next s.raiseFetch
    | some op => exec (decodeWord op) s.advance

/-- The state with a table word's bytes stored where `step` fetches next, able to fetch (log entry 10). -/
def State.withFetchWord (s : State) (nbits w : Nat) : State := s.readyToFetch.storeWordAtPc (tableWord nbits w)

end Sys2Proof.Machine
end

