-- ==== Sys2Proof/Machine/Session.lean ====
section
/-! DEFINITION. The host's side of the machine: the operations `reset`, `load`, `tick_timers` and the key change beside
`cycle()`, as the labels of one transition system (00_scope.md R4, R5), and the outputs (60_exceptions.md R166 to R170). -/

namespace Sys2Proof.Machine

/-- The status `load` returns to its caller (R159, 70_reset_and_hazards.md R184). -/
inductive LoadStatus where
  /-- OK: the image is in memory. -/
  | ok
  /-- LoadError: the buffer is longer than 3584 bytes, nothing was changed (R185). -/
  | loadError
deriving DecidableEq, Repr

/-- `reset` (R180 to R182): the reset state with the same FONT, from every state; KEY belongs to the host and is left
alone, and the random source has no state to reset (log entry 1). -/
def State.hostReset (s : State) : State := { State.resetWith s.font with key := s.key, randomDraws := s.randomDraws }

/-- `load(bytes)` (R184 to R187): the bytes to 0x200 and on, verbatim, in every state; longer than 3584 bytes is a
LoadError that changes nothing. -/
def State.load (s : State) (bytes : List Byte) : LoadStatus × State :=
  if bytes.length > Config.romMax then (.loadError, s)
  else (.ok, { s with mem := Memory.writeRun s.font s.mem Config.progBase bytes })

/-- One tick of one timer: minus 1 while nonzero, floor at zero (R163). -/
def tickDown (b : Byte) : Byte := if b = 0 then 0 else b - 1

/-- `tick_timers()` (R163): both timers, each on its own; nothing when faulted (R157). -/
def State.tickTimers (s : State) : State :=
  if s.faulted then s else { s with dt := tickDown s.dt, st := tickDown s.st }

/-- The host changes one key level (10_state.md R24). -/
def State.setKey (s : State) (k : Fin 16) (down : Bool) : State := { s with key := s.key.set k.val down }

/-- The labels of the transition system: the four operations and "host changes KEY" (R4). -/
inductive HostOp where
  /-- `reset`. -/
  | reset
  /-- `load(bytes)`; its status is `(State.load s bytes).1`. -/
  | load (bytes : List Byte)
  /-- `cycle()`. -/
  | cycle
  /-- `tick_timers()`. -/
  | tickTimers
  /-- The host sets or clears KEY[k]. -/
  | setKey (k : Fin 16) (down : Bool)
deriving DecidableEq, Repr

/-- One transition of the system (R4, R5). -/
def applyOp (s : State) (op : HostOp) : Result :=
  match op with
  | .reset => .next s.hostReset
  | .load bytes => .next (s.load bytes).2
  | .cycle => step s
  | .tickTimers => .next s.tickTimers
  | .setKey k down => .next (s.setKey k down)

/-- A session: the host's operations one after the other, in any interleaving (R4, R51), stopping at the first that does
not answer a next state (none does not, in this model). -/
def runOps (s : State) : List HostOp → Result
  | [] => .next s
  | op :: ops =>
    match applyOp s op with
    | .next t => runOps t ops
    | .fault f => .fault f
    | .refused r => .refused r

/-- The launch state of a session (70_reset_and_hazards.md R188), FONT and ROM given: `load(rom)` applied to `reset`. -/
def launch (font : Font) (rom : List Byte) : State := ((State.resetWith font).load rom).2

/-- The sound output: ST is not 0 (60_exceptions.md R167). -/
def State.soundOn (s : State) : Bool := s.st != 0

end Sys2Proof.Machine
end

