-- ==== Sys2Proof/Safety.lean ====
section
/-! DEFINITION. The terms claims are stated in: what a safe run is, the items of the state and which of them an
instruction may write (10_state.md R33), where PC goes (R15), the run of bytes an instruction accesses (R126), and the
invariant of the machine. -/

namespace Sys2Proof

open Machine

/-! ### Safe runs -/

/-- A session ends without a fault. FAULT is never cleared but by `reset` (60_exceptions.md R157), so its absence at the
end of a session without a `reset` in it means that no cycle faulted. -/
def SafeSession (s : State) (ops : List HostOp) : Prop := ∃ t, runOps s ops = .next t ∧ t.faulted = false

/-! ### Items of the state (R10), PC aside -/

/-- One independent item of the state, PC aside (R10, R33). -/
inductive Item where
  /-- V[x]. -/
  | v (x : Reg)
  /-- I. -/
  | i
  /-- SP. -/
  | sp
  /-- STACK[k]. -/
  | slot (k : Fin 16)
  /-- DT. -/
  | dt
  /-- ST. -/
  | st
  /-- MEM at an address, any number: also those where no memory is. -/
  | mem (a : Nat)
  /-- DISP[r][c]. -/
  | pixel (r : Fin 32) (c : Fin 64)
  /-- KEY[k]. -/
  | key (k : Fin 16)
  /-- FAULT. -/
  | fault
  /-- The model's own count of random bytes drawn. -/
  | randomDraws
  /-- The parameter FONT, which no operation writes (log entry 15). -/
  | font
deriving DecidableEq, Repr

/-- The item is the same in two states. -/
def Item.same (s t : State) : Item → Prop
  | .v x => t.getV x = s.getV x
  | .i => t.i = s.i
  | .sp => t.sp = s.sp
  | .slot k => t.stack[k.val] = s.stack[k.val]
  | .dt => t.dt = s.dt
  | .st => t.st = s.st
  | .mem a => t.readByte a = s.readByte a
  | .pixel r c => t.pixel r c = s.pixel r c
  | .key k => t.keyDown k = s.keyDown k
  | .fault => t.fault = s.fault
  | .randomDraws => t.randomDraws = s.randomDraws
  | .font => t.font = s.font

/-- Every item but those listed is the same in two states. -/
def OnlyChanges (s t : State) (its : List Item) : Prop := ∀ it, it ∉ its → it.same s t

/-- The item is a pixel. -/
def Item.isPixel : Item → Bool
  | .pixel _ _ => true
  | _ => false

/-- The item is the stack slot of that number. -/
def Item.isSlot (n : Nat) : Item → Bool
  | .slot k => k.val == n
  | _ => false

/-- The item is one of the `len` bytes of memory from `base`. -/
def Item.isByteOf (base len : Nat) : Item → Bool
  | .mem a => base ≤ a && a < base + len
  | _ => false

/-- The item is one of V[0] to V[x]. -/
def Item.isRegUpTo (x : Reg) : Item → Bool
  | .v y => y.toNat ≤ x.toNat
  | _ => false

/-- What an instruction may write, PC aside: its row of the table of R33; FAULT for those that may fault (60_exceptions.md
R150); and for `Cxnn` the model's own count of draws. -/
def mayWrite (i : Instr) (s : State) (it : Item) : Bool :=
  match i with
  | .cls => it.isPixel
  | .ret => it == .sp || it == .fault
  | .jp _ | .jpV0 _ | .seVxNn _ _ | .sneVxNn _ _ | .seVxVy _ _ | .sneVxVy _ _ | .unknown _ => false
  | .call _ => it.isSlot s.sp.val || it == .sp || it == .fault
  | .ldVxNn x _ | .addVxNn x _ | .ldVxVy x _ | .orVxVy x _ | .andVxVy x _ | .xorVxVy x _ => it == .v x
  | .addVxVy x _ | .subVxVy x _ | .shrVx x _ | .subnVxVy x _ | .shlVx x _ => it == .v x || it == .v regF
  | .ldINnn _ | .addIVx _ | .ldFVx _ => it == .i
  | .rndVxNn x _ => it == .v x || it == .randomDraws
  | .drw _ _ _ => it.isPixel || it == .v regF || it == .fault
  | .skpVx _ | .sknpVx _ => it == .fault
  | .ldVxDt x | .ldVxK x => it == .v x
  | .ldDtVx _ => it == .dt
  | .ldStVx _ => it == .st
  | .ldBVx _ => it.isByteOf (s.effAddr 0) 3 || it == .fault
  | .ldMemVx x => it.isByteOf (s.effAddr 0) (countUpTo x) || it == .fault
  | .ldVxMem x => it.isRegUpTo x || it == .fault

/-- The families of the opcode table, as the section files 41 to 45 group it. -/
inductive Family where
  | flow | alu | indexMemory | display | keysTimers
deriving DecidableEq, Repr

/-- The family of an instruction. -/
def Instr.family : Instr → Family
  | .ret | .jp _ | .call _ | .jpV0 _ | .seVxNn _ _ | .sneVxNn _ _ | .seVxVy _ _ | .sneVxVy _ _ | .unknown _ => .flow
  | .ldVxNn _ _ | .addVxNn _ _ | .ldVxVy _ _ | .orVxVy _ _ | .andVxVy _ _ | .xorVxVy _ _ | .addVxVy _ _
  | .subVxVy _ _ | .shrVx _ _ | .subnVxVy _ _ | .shlVx _ _ | .rndVxNn _ _ => .alu
  | .ldINnn _ | .addIVx _ | .ldFVx _ | .ldBVx _ | .ldMemVx _ | .ldVxMem _ => .indexMemory
  | .cls | .drw _ _ _ => .display
  | .skpVx _ | .sknpVx _ | .ldVxDt _ | .ldVxK _ | .ldDtVx _ | .ldStVx _ => .keysTimers

/-! ### The range an instruction accesses -/

/-- How many bytes from I the instruction accesses in its execution (the table of R126); `none` for the others. -/
def accessLen (i : Instr) (s : State) : Option Nat :=
  match i with
  | .ldBVx _ => some 3
  | .ldMemVx x | .ldVxMem x => some (x.toNat + 1)
  | .drw _ y n => some (if (s.getV y).toNat > 31 then 0 else min n.toNat (32 - (s.getV y).toNat))
  | .cls | .ret | .jp _ | .call _ | .seVxNn _ _ | .sneVxNn _ _ | .seVxVy _ _ | .ldVxNn _ _ | .addVxNn _ _
  | .ldVxVy _ _ | .orVxVy _ _ | .andVxVy _ _ | .xorVxVy _ _ | .addVxVy _ _ | .subVxVy _ _ | .shrVx _ _
  | .subnVxVy _ _ | .shlVx _ _ | .sneVxVy _ _ | .ldINnn _ | .jpV0 _ | .rndVxNn _ _ | .skpVx _
  | .sknpVx _ | .ldVxDt _ | .ldVxK _ | .ldDtVx _ | .ldStVx _ | .addIVx _ | .ldFVx _ | .unknown _ => none

/-- The highest address of the instruction's range is above 0xFFF (R126, 60_exceptions.md R154): the sum is unbounded. -/
def accessesBeyondMemory (i : Instr) (s : State) : Prop :=
  ∃ len, accessLen i s = some len ∧ 0 < len ∧ s.i.toNat + len - 1 > 0xFFF

/-- The condition of the one fault the instruction can raise in its execution, and that fault (the table of
60_exceptions.md R150). -/
def faultCondition (i : Instr) (s : State) (f : Fault) : Prop :=
  match i with
  | .call _ => f = .stackOverflow ∧ s.sp.val = 16
  | .ret => f = .stackUnderflow ∧ s.sp.val = 0
  | .skpVx x | .sknpVx x => f = .keyIndexOutOfRange ∧ 15 < (s.getV x).toNat
  | .ldBVx _ | .ldMemVx _ | .ldVxMem _ | .drw _ _ _ => f = .dataOutOfRange ∧ accessesBeyondMemory i s
  | .cls | .jp _ | .seVxNn _ _ | .sneVxNn _ _ | .seVxVy _ _ | .ldVxNn _ _ | .addVxNn _ _
  | .ldVxVy _ _ | .orVxVy _ _ | .andVxVy _ _ | .xorVxVy _ _ | .addVxVy _ _ | .subVxVy _ _ | .shrVx _ _
  | .subnVxVy _ _ | .shlVx _ _ | .sneVxVy _ _ | .ldINnn _ | .jpV0 _ | .rndVxNn _ _
  | .ldVxDt _ | .ldVxK _ | .ldDtVx _ | .ldStVx _ | .addIVx _ | .ldFVx _ | .unknown _ => False

/-! ### Where PC goes -/

/-- PC after an instruction fetched from `a` that raises no fault: the table of R15. -/
def pcAfter (i : Instr) (a : Word) (s : State) : Word :=
  match i with
  | .jp nnn | .call nnn => nnn.setWidth 16
  | .jpV0 nnn => nnn.setWidth 16 + (s.getV 0).setWidth 16
  | .ret => if h : 0 < s.sp.val then s.stack[s.sp.val - 1]'(by omega) else a + 2
  | .seVxNn x nn => if s.getV x = nn then a + 4 else a + 2
  | .sneVxNn x nn => if s.getV x = nn then a + 2 else a + 4
  | .seVxVy x y => if s.getV x = s.getV y then a + 4 else a + 2
  | .sneVxVy x y => if s.getV x = s.getV y then a + 2 else a + 4
  | .skpVx x => if ∃ k : Fin 16, k.val = (s.getV x).toNat ∧ s.keyDown k = true then a + 4 else a + 2
  | .sknpVx x => if ∃ k : Fin 16, k.val = (s.getV x).toNat ∧ s.keyDown k = true then a + 2 else a + 4
  | .ldVxK _ => if ∃ k : Fin 16, s.keyDown k = true then a + 2 else a
  | .cls | .ldVxNn _ _ | .addVxNn _ _ | .ldVxVy _ _ | .orVxVy _ _ | .andVxVy _ _ | .xorVxVy _ _ | .addVxVy _ _
  | .subVxVy _ _ | .shrVx _ _ | .subnVxVy _ _ | .shlVx _ _ | .ldINnn _ | .rndVxNn _ _ | .drw _ _ _
  | .ldVxDt _ | .ldDtVx _ | .ldStVx _ | .addIVx _ | .ldFVx _ | .ldBVx _ | .ldMemVx _
  | .ldVxMem _ | .unknown _ => a + 2

/-! ### The invariant -/

/-- What FAULT says is true of the state it stands in (60_exceptions.md R150, R155 to R157): not faulted, all fields are
0; a fetch fault, PC is the address that could not be fetched from; an execution fault, PC is the instruction's address
plus 2, the recorded word is that of an instruction that can raise the fault, and its condition still holds. -/
def FaultDescribed (s : State) : Prop :=
  match s.fault.cause with
  | none => s.fault.pc = 0 ∧ s.fault.opcode = 0
  | some .fetchOutOfRange => s.fault.pc = s.pc ∧ s.fault.opcode = 0 ∧ 0xFFF ≤ s.pc.toNat
  | some f =>
    s.pc = s.fault.pc + 2 ∧ s.fault.pc.toNat < 0xFFF ∧ faultCondition (decodeWord s.fault.opcode) s f

/-- The invariant of the machine. -/
structure Inv (s : State) : Prop where
  /-- Memory keeps its canonical form. -/
  mem_wf : Memory.wf s.font s.mem
  /-- The largest value PC can hold (R16). -/
  pc_le : s.pc.toNat ≤ 0x10FE
  /-- A return address is an advanced PC (R18, R92): at most 0x1000. -/
  slot_le : ∀ k : Fin 16, (s.stack[k.val]).toNat ≤ 0x1000
  /-- FAULT describes the first and only fault of the session (R157). -/
  fault_described : FaultDescribed s

end Sys2Proof
end

