-- ==== Sys2Proof/Certificates/Slice0/Obligations.lean ====
section
/-! DEFINITION. The statements for the provers. `s` is the state an instruction executes in: its PC is the instruction's
address plus 2 (40_cycle.md R82). Where a clause rests on a decision the spec marks as its own, or on a log entry of the
model, the docstring says so. -/

open Sys2Proof Sys2Proof.Machine

/-! ### Encoding and decoding -/

/-- Decoding the word of a well-formed instruction gives it back, with every operand at every value: no bit is dropped
(30_encoding.md R61, R64, R69). Which words are unknown opcodes is the spec's own decision D11. -/
def Obligations.DecodeOfEncodeIsTheInstruction : Prop :=
  ∀ i : Instr, i.wf = true → decodeWord (encode i) = i

/-- Every word decodes to a well-formed instruction, and encoding that gives the word back (R63, R66). Which words are
unknown opcodes is the spec's own decision D11. -/
def Obligations.EveryWordDecodesAndEncodesBack : Prop :=
  ∀ op : Word, (decodeWord op).wf = true ∧ encode (decodeWord op) = op

/-- The decoder gives an instruction of a row of the opcode map of R64 exactly on the words that select the row: the whole
pattern counts, the spec's own decision D11. -/
def Obligations.DecoderFollowsMaskAndMatch : Prop :=
  ∀ op : Word, ∀ r ∈ opcodeRows, (op &&& r.mask = r.value ↔ (decodeWord op).pattern = some r.pattern)

/-- No word selects two rows of the opcode map: what R64 says of its table and marks as derived. -/
def Obligations.NoWordSelectsTwoRows : Prop :=
  ∀ op : Word, ∀ r ∈ opcodeRows, ∀ r' ∈ opcodeRows,
    op &&& r.mask = r.value → op &&& r'.mask = r'.value → r = r'

/-- The unknown words are those of the table of R66 (the spec's own decision D11), and one of them executes as nothing, PC
having been advanced (R85). -/
def Obligations.UnknownWordsAreTheListedNoOps : Prop :=
  (∀ op : Word, decodeWord op = .unknown op ↔ unknownWord op = true) ∧
  (∀ (op : Word) (s : State), exec (.unknown op) s = .next s)

/-- The words on which the source's prose and its table differ (93_implementation_defined.md U5) execute as nothing: the
spec's own decision D11 (log entry 7). -/
def Obligations.AmbiguousWordsDoNothing : Prop :=
  ∀ (op : Word) (s : State), ambiguousWord op = true →
    decodeWord op = .unknown op ∧ exec (decodeWord op) s = .next s

/-- Words written out from the patterns of R64, one or more of every family, decode to the instruction they stand for. The
last word, 0x5AB1, is no word of a pattern of R64 but one of the ambiguous words of U5: that it is an unknown opcode is the
spec's own decision D11 (log entry 7, DESIGN CHOICE). -/
def Obligations.WrittenOutWordsDecode : Prop :=
  decodeWord 0b0000000011101110 = .ret ∧
  decodeWord 0b0010001100000000 = .call 0x300 ∧
  decodeWord 0b1001101010110000 = .sneVxVy 0xA 0xB ∧
  decodeWord 0b1000001101000100 = .addVxVy 0x3 0x4 ∧
  decodeWord 0b1100000100001111 = .rndVxNn 0x1 0x0F ∧
  decodeWord 0b1101000100100101 = .drw 0x1 0x2 0x5 ∧
  decodeWord 0b0000000011100000 = .cls ∧
  decodeWord 0b1110001110011110 = .skpVx 0x3 ∧
  decodeWord 0b1111001000010101 = .ldDtVx 0x2 ∧
  decodeWord 0b1111111101100101 = .ldVxMem 0xF ∧
  decodeWord 0b1010001100000000 = .ldINnn 0x300 ∧
  decodeWord 0b0101101010110001 = .unknown 0x5AB1

/-! ### The cycle -/

/-- One step is one `cycle()`, as the pseudocode of R80 has it: nothing when faulted (the spec's own decision D5);
FetchOutOfRange when PC + 1 is above 0xFFF (its decisions D1, D3, D4); otherwise the decoded instruction executes in the
state with PC advanced by 2, its word read big-endian. -/
def Obligations.StepRunsTheDecodedInstruction : Prop :=
  (∀ s : State, s.fault.cause ≠ none → step s = .next s) ∧
  (∀ s : State, s.fault.cause = none → 0xFFF < s.pc.toNat + 1 →
    step s = .next { s with fault := ⟨some .fetchOutOfRange, s.pc, 0x0000⟩ }) ∧
  (∀ (s : State) (hi lo : Byte), s.fault.cause = none → s.readByte s.pc.toNat = some hi →
    s.readByte (s.pc.toNat + 1) = some lo → step s = exec (decodeWord (hi ++ lo)) { s with pc := s.pc + 2 })

/-- Once faulted, `cycle()` and `tick_timers()` do nothing, `load` copies to canonical memory (log entry 9) or refuses as
usual and leaves FAULT, a key change leaves FAULT, and `reset` clears it (the spec's own decisions D5, D16, D25). -/
def Obligations.OnlyResetLeavesAFault : Prop :=
  ∀ s : State, s.fault.cause ≠ none →
    step s = .next s ∧ s.tickTimers = s ∧
    (∀ bytes, (s.load bytes).2.fault = s.fault) ∧
    (∀ bytes, Memory.wf s.font s.mem → bytes.length ≤ 3584 → (s.load bytes).1 = .ok ∧
      (∀ k (hk : k < bytes.length), (s.load bytes).2.readByte (0x200 + k) = some bytes[k]) ∧
      ∀ a, a < 0x200 ∨ 0x200 + bytes.length ≤ a → (s.load bytes).2.readByte a = s.readByte a) ∧
    (∀ bytes, bytes.length > 3584 → s.load bytes = (.loadError, s)) ∧
    (∀ op t, op ≠ .reset → applyOp s op = .next t → t.fault = s.fault) ∧
    applyOp s .reset = .next s.hostReset ∧ s.hostReset.fault = ⟨none, 0, 0⟩

/-- A cycle has two outcomes only: it leaves FAULT alone, or it raises one fault, on that fault's condition, and then the
state differs from the one before in PC and FAULT only. The form of the record is the spec's own decision D4, precise
faults D3, the fetch fault D1. -/
def Obligations.CycleCompletesOrFaultsPrecisely : Prop :=
  ∀ s : State, s.fault.cause = none → ∃ t, step s = .next t ∧
    (t.fault = s.fault ∨
     (0xFFF < s.pc.toNat + 1 ∧ t = { s with fault := ⟨some .fetchOutOfRange, s.pc, 0x0000⟩ }) ∨
     (∃ f op, s.fetch = some op ∧ faultCondition (decodeWord op) s f ∧
       t = { s with pc := s.pc + 2, fault := ⟨some f, s.pc, op⟩ }))

/-- An instruction raises a fault exactly on its condition in the table of R150 (the conditions of codes 4 and 5, the
record and its precision are the spec's own decisions D1, D3, D4, D6), and FAULT then names the instruction. -/
def Obligations.ExecutionFaultsExactlyOnTheirConditions : Prop :=
  ∀ (i : Instr) (s : State), s.fault.cause = none → ∃ t, exec i s = .next t ∧
    (∀ f, t.fault.cause = some f ↔ faultCondition i s f) ∧
    (∀ f, faultCondition i s f → t = { s with fault := ⟨some f, s.pc - 2, encode i⟩ })

/-- A cycle does not change KEY, and changes a timer only by executing `Fx15` or `Fx18` (the spec's own decision D30). -/
def Obligations.CycleNeitherTicksNorChangesKeys : Prop :=
  ∀ s t : State, step s = .next t →
    t.key = s.key ∧
    (t.dt ≠ s.dt → ∃ op x, s.fetch = some op ∧ decodeWord op = .ldDtVx x ∧ t.dt = s.getV x) ∧
    (t.st ≠ s.st → ∃ op x, s.fetch = some op ∧ decodeWord op = .ldStVx x ∧ t.st = s.getV x)

/-- SP and STACK change only by `2nnn`, which writes the advanced PC to STACK[SP], leaves the other slots and adds 1 to SP,
and by `00EE`, which subtracts 1 and leaves every slot (the slot left is the spec's own decision D17). -/
def Obligations.StackMovesOnlyByCallAndReturn : Prop :=
  ∀ s t : State, step s = .next t → (t.sp ≠ s.sp ∨ t.stack ≠ s.stack) →
    ∃ op, s.fetch = some op ∧
      ((∃ nnn, decodeWord op = .call nnn ∧ t.sp.val = s.sp.val + 1 ∧
          ∀ k : Fin 16, t.stack[k.val] = if k.val = s.sp.val then s.pc + 2 else s.stack[k.val]) ∨
       (decodeWord op = .ret ∧ t.sp.val + 1 = s.sp.val ∧ t.stack = s.stack))

/-- A cycle changes a byte of memory only by executing `Fx33` or `Fx55`, and only a byte of the run it stores from I (R40,
R54). -/
def Obligations.MemoryChangesOnlyByBcdAndStore : Prop :=
  ∀ (s t : State) (a : Nat), step s = .next t → t.readByte a ≠ s.readByte a →
    ∃ op x, s.fetch = some op ∧
      ((decodeWord op = .ldBVx x ∧ s.effAddr 0 ≤ a ∧ a < s.effAddr 0 + 3) ∨
       (decodeWord op = .ldMemVx x ∧ s.effAddr 0 ≤ a ∧ a < s.effAddr 0 + (x.toNat + 1)))

/-- A cycle changes a pixel only by executing `00E0` or `Dxyn` (R22, R33). -/
def Obligations.PixelsChangeOnlyByClearAndDraw : Prop :=
  ∀ (s t : State) (r : Fin 32) (c : Fin 64), step s = .next t → t.pixel r c ≠ s.pixel r c →
    ∃ op, s.fetch = some op ∧ (decodeWord op = .cls ∨ ∃ x y n, decodeWord op = .drw x y n)

/-- A cycle changes I only by executing `Annn`, `Fx1E` or `Fx29` (R13, R33). -/
def Obligations.IndexChangesOnlyByItsThreeWriters : Prop :=
  ∀ s t : State, step s = .next t → t.i ≠ s.i →
    ∃ op, s.fetch = some op ∧
      ((∃ nnn, decodeWord op = .ldINnn nnn) ∨ (∃ x, decodeWord op = .addIVx x) ∨ (∃ x, decodeWord op = .ldFVx x))

/-- How every cycle leaves PC: a fetch that faults leaves it, an instruction that faults leaves the advanced PC (the
spec's own decision D3), every other instruction leaves what the table of R15, which the spec derives, says. -/
def Obligations.PcAfterEveryCycle : Prop :=
  ∀ s t : State, s.fault.cause = none → step s = .next t →
    (s.fetch = none → t.pc = s.pc) ∧
    (∀ op, s.fetch = some op → t.fault.cause ≠ none → t.pc = s.pc + 2) ∧
    (∀ op, s.fetch = some op → t.fault.cause = none → t.pc = pcAfter (decodeWord op) s.pc s)

/-! ### The invariant -/

/-- The state after reset meets the invariant: canonical memory (the model's own form, log entry 9), PC at most 0x10FE,
return addresses at most 0x1000, and a FAULT record that is true of the state. -/
def Obligations.ResetMeetsTheInvariant : Prop := Inv State.reset

/-- Every step keeps the invariant, from every state that meets it: memory stays canonical (log entry 9), PC at most 0x10FE
and return addresses at most 0x1000 (which R16 derives), and FAULT describes the first and only fault (R157, the spec's
own decisions D3 to D5). -/
def Obligations.StepKeepsTheInvariant : Prop :=
  ∀ s t : State, Inv s → step s = .next t → Inv t

/-- Every session, any interleaving of the host's five kinds of operation (R4, R5), runs to its end, keeps the invariant
and leaves the parameter FONT as it was (R7, R29): no operation stops the machine (log entries 5, 6, 9, 15). -/
def Obligations.SessionsCompleteAndKeepTheInvariant : Prop :=
  ∀ (ops : List HostOp) (s : State), Inv s → ∃ t, runOps s ops = .next t ∧ Inv t ∧ t.font = s.font

/-! ### ALU -/

/-- `6xnn` and `8xy0` write their operand to V[x]; `7xnn` adds modulo 256; no flag is written. -/
def Obligations.LoadsAndAddImmediateWriteVx : Prop :=
  (∀ (s : State) (x : Reg) (nn : Byte), decodeWord (0x6#4 ++ x ++ nn) = .ldVxNn x nn ∧
    ∃ t, exec (.ldVxNn x nn) s = .next t ∧ t.getV x = nn ∧ t.pc = s.pc ∧ OnlyChanges s t [.v x]) ∧
  (∀ (s : State) (x : Reg) (nn : Byte), decodeWord (0x7#4 ++ x ++ nn) = .addVxNn x nn ∧
    ∃ t, exec (.addVxNn x nn) s = .next t ∧ (t.getV x).toNat = ((s.getV x).toNat + nn.toNat) % 256 ∧
      t.pc = s.pc ∧ OnlyChanges s t [.v x]) ∧
  (∀ (s : State) (x y : Reg), decodeWord (0x8#4 ++ x ++ y ++ 0x0#4) = .ldVxVy x y ∧
    ∃ t, exec (.ldVxVy x y) s = .next t ∧ t.getV x = s.getV y ∧ t.pc = s.pc ∧ OnlyChanges s t [.v x])

/-- `8xy1`, `8xy2`, `8xy3` are bitwise OR, AND, XOR into V[x]; no flag is written. -/
def Obligations.LogicIsBitwiseWithoutFlag : Prop :=
  (∀ (s : State) (x y : Reg), decodeWord (0x8#4 ++ x ++ y ++ 0x1#4) = .orVxVy x y ∧
    ∃ t, exec (.orVxVy x y) s = .next t ∧
      (∀ k, (t.getV x).getLsbD k = ((s.getV x).getLsbD k || (s.getV y).getLsbD k)) ∧
      t.pc = s.pc ∧ OnlyChanges s t [.v x]) ∧
  (∀ (s : State) (x y : Reg), decodeWord (0x8#4 ++ x ++ y ++ 0x2#4) = .andVxVy x y ∧
    ∃ t, exec (.andVxVy x y) s = .next t ∧
      (∀ k, (t.getV x).getLsbD k = ((s.getV x).getLsbD k && (s.getV y).getLsbD k)) ∧
      t.pc = s.pc ∧ OnlyChanges s t [.v x]) ∧
  (∀ (s : State) (x y : Reg), decodeWord (0x8#4 ++ x ++ y ++ 0x3#4) = .xorVxVy x y ∧
    ∃ t, exec (.xorVxVy x y) s = .next t ∧
      (∀ k, (t.getV x).getLsbD k = xor ((s.getV x).getLsbD k) ((s.getV y).getLsbD k)) ∧
      t.pc = s.pc ∧ OnlyChanges s t [.v x])

/-- `8xy4`: V[x] is the sum modulo 256, VF the carry; for x = 0xF the flag wins, by R100, whose order is the spec's own
decision D10. -/
def Obligations.AddWritesSumThenCarry : Prop :=
  ∀ (s : State) (x y : Reg), decodeWord (0x8#4 ++ x ++ y ++ 0x4#4) = .addVxVy x y ∧
    ∃ t, exec (.addVxVy x y) s = .next t ∧
      t.getV 0xF = (if (s.getV x).toNat + (s.getV y).toNat > 255 then 1 else 0) ∧
      (x ≠ 0xF → (t.getV x).toNat = ((s.getV x).toNat + (s.getV y).toNat) % 256) ∧
      t.pc = s.pc ∧ OnlyChanges s t [.v x, .v 0xF]

/-- `8xy5` and `8xy7`: V[x] is the difference modulo 256, in the two operand orders, VF is 1 exactly when there is no
borrow; for x = 0xF the flag wins, by R100, whose order is the spec's own decision D10. -/
def Obligations.SubtractWritesDifferenceThenNoBorrow : Prop :=
  (∀ (s : State) (x y : Reg), decodeWord (0x8#4 ++ x ++ y ++ 0x5#4) = .subVxVy x y ∧
    ∃ t, exec (.subVxVy x y) s = .next t ∧
      t.getV 0xF = (if (s.getV x).toNat ≥ (s.getV y).toNat then 1 else 0) ∧
      (x ≠ 0xF → (t.getV x).toNat = ((s.getV x).toNat + 256 - (s.getV y).toNat) % 256) ∧
      t.pc = s.pc ∧ OnlyChanges s t [.v x, .v 0xF]) ∧
  (∀ (s : State) (x y : Reg), decodeWord (0x8#4 ++ x ++ y ++ 0x7#4) = .subnVxVy x y ∧
    ∃ t, exec (.subnVxVy x y) s = .next t ∧
      t.getV 0xF = (if (s.getV y).toNat ≥ (s.getV x).toNat then 1 else 0) ∧
      (x ≠ 0xF → (t.getV x).toNat = ((s.getV y).toNat + 256 - (s.getV x).toNat) % 256) ∧
      t.pc = s.pc ∧ OnlyChanges s t [.v x, .v 0xF])

/-- `8xy6` and `8xyE`: V[x] is shifted by one place in place, whatever y is, and VF is the bit shifted out; for x = 0xF
the flag wins, by R100, whose order is the spec's own decision D10. -/
def Obligations.ShiftsByOneInPlace : Prop :=
  (∀ (s : State) (x y : Reg), decodeWord (0x8#4 ++ x ++ y ++ 0x6#4) = .shrVx x y ∧
    ∃ t, exec (.shrVx x y) s = .next t ∧
      (t.getV 0xF).toNat = (s.getV x).toNat % 2 ∧
      (x ≠ 0xF → (t.getV x).toNat = (s.getV x).toNat / 2) ∧
      t.pc = s.pc ∧ OnlyChanges s t [.v x, .v 0xF]) ∧
  (∀ (s : State) (x y : Reg), decodeWord (0x8#4 ++ x ++ y ++ 0xE#4) = .shlVx x y ∧
    ∃ t, exec (.shlVx x y) s = .next t ∧
      (t.getV 0xF).toNat = (s.getV x).toNat / 128 ∧
      (x ≠ 0xF → (t.getV x).toNat = 2 * (s.getV x).toNat % 256) ∧
      t.pc = s.pc ∧ OnlyChanges s t [.v x, .v 0xF])

/-- `Cxnn`: V[x] is nn AND the random byte of this draw, whatever that byte is, and one byte is drawn. The byte is the
model's free value `Config.randomByte`, and the count of draws the model's own (log entry 1). -/
def Obligations.RandomIsMaskedByNn : Prop :=
  ∀ (s : State) (x : Reg) (nn : Byte), decodeWord (0xC#4 ++ x ++ nn) = .rndVxNn x nn ∧
    ∃ t, exec (.rndVxNn x nn) s = .next t ∧ t.randomDraws = s.randomDraws + 1 ∧
      (∀ k, (t.getV x).getLsbD k = (nn.getLsbD k && (Config.randomByte s.randomDraws).getLsbD k)) ∧
      t.pc = s.pc ∧ OnlyChanges s t [.v x, .randomDraws]

/-- The six instructions that write VF as a flag leave it 0 or 1, whenever they do not fault. (R12 and R191 say "seven"
and list these six: log entry 13.) -/
def Obligations.FlagWritersLeaveZeroOrOne : Prop :=
  ∀ (i : Instr) (s t : State) (x y : Reg) (n : BitVec 4), s.fault.cause = none →
    (i = .addVxVy x y ∨ i = .subVxVy x y ∨ i = .shrVx x y ∨ i = .subnVxVy x y ∨ i = .shlVx x y ∨ i = .drw x y n) →
    exec i s = .next t → t.fault.cause = none → t.getV 0xF = 0 ∨ t.getV 0xF = 1

/-! ### Frames: an instruction changes nothing that its row of R33 does not list -/

/-- The ALU and random instructions change nothing but V[x], VF where they define a flag, and the model's own count of
draws (log entry 1): their rows of R33, which the spec derives. -/
def Obligations.AluFrame : Prop :=
  ∀ (i : Instr) (s t : State) (it : Item), i.family = .alu → exec i s = .next t → mayWrite i s it = false →
    it.same s t

/-- The control transfer instructions and the unknown opcode change nothing, PC aside, but: `2nnn` STACK[SP] and SP,
`00EE` SP, and these two FAULT: their rows of R33, which the spec derives. -/
def Obligations.FlowFrame : Prop :=
  ∀ (i : Instr) (s t : State) (it : Item), i.family = .flow → exec i s = .next t → mayWrite i s it = false →
    it.same s t

/-- The index and memory instructions change nothing but I (`Annn`, `Fx1E`, `Fx29`), or the bytes of the run from I that
`Fx33` and `Fx55` store, or V[0] to V[x] (`Fx65`), and the last three FAULT: their rows of R33, which the spec derives. -/
def Obligations.IndexMemoryFrame : Prop :=
  ∀ (i : Instr) (s t : State) (it : Item), i.family = .indexMemory → exec i s = .next t → mayWrite i s it = false →
    it.same s t

/-- The display instructions change nothing but pixels, and `Dxyn` VF and FAULT: no byte of memory, not I. Their rows of
R33, which the spec derives. -/
def Obligations.DisplayFrame : Prop :=
  ∀ (i : Instr) (s t : State) (it : Item), i.family = .display → exec i s = .next t → mayWrite i s it = false →
    it.same s t

/-- The key and timer instructions change nothing, PC aside, but V[x] (`Fx07`, `Fx0A`), DT (`Fx15`), ST (`Fx18`), and the
key skips FAULT: never KEY. Their rows of R33, which the spec derives. -/
def Obligations.KeysTimersFrame : Prop :=
  ∀ (i : Instr) (s t : State) (it : Item), i.family = .keysTimers → exec i s = .next t → mayWrite i s it = false →
    it.same s t

/-! ### Control transfer -/

/-- `1nnn` sets PC to nnn. -/
def Obligations.JumpGoesToNnn : Prop :=
  ∀ (s : State) (nnn : Addr12), decodeWord (0x1#4 ++ nnn) = .jp nnn ∧
    ∃ t, exec (.jp nnn) s = .next t ∧ t.pc.toNat = nnn.toNat ∧ OnlyChanges s t []

/-- `Bnnn` sets PC to nnn plus V[0], never another register, not reduced to 12 bits (the spec's own decisions D1, D12). -/
def Obligations.JumpV0GoesToNnnPlusV0 : Prop :=
  ∀ (s : State) (nnn : Addr12), decodeWord (0xB#4 ++ nnn) = .jpV0 nnn ∧
    ∃ t, exec (.jpV0 nnn) s = .next t ∧ t.pc.toNat = nnn.toNat + (s.getV 0).toNat ∧ OnlyChanges s t []

/-- `2nnn` pushes the advanced PC, adds 1 to SP and jumps while a slot is free; with SP = 16 it raises StackOverflow and
nothing else changes (the spec's own decisions D3, D4). -/
def Obligations.CallPushesOrOverflows : Prop :=
  (∀ nnn : Addr12, decodeWord (0x2#4 ++ nnn) = .call nnn) ∧
  (∀ (s : State) (nnn : Addr12) (h : s.sp.val < 16),
    ∃ t, exec (.call nnn) s = .next t ∧ t.stack[s.sp.val] = s.pc ∧ t.sp.val = s.sp.val + 1 ∧
      t.pc.toNat = nnn.toNat ∧ OnlyChanges s t [.slot ⟨s.sp.val, h⟩, .sp]) ∧
  (∀ (s : State) (nnn : Addr12), s.sp.val = 16 →
    exec (.call nnn) s = .next { s with fault := ⟨some .stackOverflow, s.pc - 2, 0x2#4 ++ nnn⟩ })

/-- `00EE` subtracts 1 from SP and sets PC to the slot it then names, which keeps its value (the spec's own decision D17);
with SP = 0 it raises StackUnderflow and nothing else changes (its decisions D3, D4). -/
def Obligations.ReturnPopsOrUnderflows : Prop :=
  decodeWord 0x00EE = .ret ∧
  (∀ (s : State) (h : 0 < s.sp.val),
    ∃ t, exec .ret s = .next t ∧ t.sp.val + 1 = s.sp.val ∧ t.pc = s.stack[s.sp.val - 1]'(by omega) ∧
      OnlyChanges s t [.sp]) ∧
  (∀ s : State, s.sp.val = 0 → exec .ret s = .next { s with fault := ⟨some .stackUnderflow, s.pc - 2, 0x00EE⟩ })

/-- `3xnn` skips when V[x] is nn, `4xnn` when it is not: a skip adds 2 to the advanced PC. -/
def Obligations.ImmediateSkips : Prop :=
  (∀ (s : State) (x : Reg) (nn : Byte), decodeWord (0x3#4 ++ x ++ nn) = .seVxNn x nn ∧
    ∃ t, exec (.seVxNn x nn) s = .next t ∧ t.pc = (if s.getV x = nn then s.pc + 2 else s.pc) ∧ OnlyChanges s t []) ∧
  (∀ (s : State) (x : Reg) (nn : Byte), decodeWord (0x4#4 ++ x ++ nn) = .sneVxNn x nn ∧
    ∃ t, exec (.sneVxNn x nn) s = .next t ∧ t.pc = (if s.getV x ≠ nn then s.pc + 2 else s.pc) ∧ OnlyChanges s t [])

/-- `5xy0` skips when V[x] is V[y], `9xy0` when it is not (R96, R97). -/
def Obligations.RegisterSkips : Prop :=
  (∀ (s : State) (x y : Reg), decodeWord (0x5#4 ++ x ++ y ++ 0x0#4) = .seVxVy x y ∧
    ∃ t, exec (.seVxVy x y) s = .next t ∧ t.pc = (if s.getV x = s.getV y then s.pc + 2 else s.pc) ∧
      OnlyChanges s t []) ∧
  (∀ (s : State) (x y : Reg), decodeWord (0x9#4 ++ x ++ y ++ 0x0#4) = .sneVxVy x y ∧
    ∃ t, exec (.sneVxVy x y) s = .next t ∧ t.pc = (if s.getV x ≠ s.getV y then s.pc + 2 else s.pc) ∧
      OnlyChanges s t [])

/-- Of each pair of opposite skips with the same fields exactly one skips: `3xnn` and `4xnn`, `5xy0` and `9xy0`, and
`Ex9E` and `ExA1` when V[x] is at most 15. -/
def Obligations.ExactlyOneOfOppositeSkipsSkips : Prop :=
  (∀ (s t u : State) (x : Reg) (nn : Byte), exec (.seVxNn x nn) s = .next t → exec (.sneVxNn x nn) s = .next u →
    (t.pc = s.pc + 2 ∧ u.pc = s.pc) ∨ (t.pc = s.pc ∧ u.pc = s.pc + 2)) ∧
  (∀ (s t u : State) (x y : Reg), exec (.seVxVy x y) s = .next t → exec (.sneVxVy x y) s = .next u →
    (t.pc = s.pc + 2 ∧ u.pc = s.pc) ∨ (t.pc = s.pc ∧ u.pc = s.pc + 2)) ∧
  (∀ (s t u : State) (x : Reg), (s.getV x).toNat ≤ 15 → exec (.skpVx x) s = .next t → exec (.sknpVx x) s = .next u →
    (t.pc = s.pc + 2 ∧ u.pc = s.pc) ∨ (t.pc = s.pc ∧ u.pc = s.pc + 2))

/-- A `00EE` at any address after a `2nnn` resumes at the instruction after the call and restores SP. -/
def Obligations.ReturnUndoesCall : Prop :=
  ∀ (s : State) (nnn : Addr12) (w : Word), s.sp.val < 16 →
    ∃ t u, exec (.call nnn) s = .next t ∧ exec .ret { t with pc := w } = .next u ∧ u.pc = s.pc ∧ u.sp = s.sp

/-- A jump to its own address leaves the whole state as it is (R91; as the end of a run, R189, the spec's own decision D27). -/
def Obligations.SelfJumpLeavesTheStateUnchanged : Prop :=
  ∀ (s : State) (nnn : Addr12), s.fault.cause = none → s.fetch = some (0x1#4 ++ nnn) → s.pc.toNat = nnn.toNat →
    step s = .next s

/-! ### Index register and memory -/

/-- `Annn` sets I to nnn. -/
def Obligations.LoadIndexImmediate : Prop :=
  ∀ (s : State) (nnn : Addr12), decodeWord (0xA#4 ++ nnn) = .ldINnn nnn ∧
    ∃ t, exec (.ldINnn nnn) s = .next t ∧ t.i.toNat = nnn.toNat ∧ t.pc = s.pc ∧ OnlyChanges s t [.i]

/-- `Fx1E` adds V[x] to I modulo 65536 (the wrap is the spec's own decision D2) and `Fx29` sets I to 0x050 + 5 V[x], all 8
bits of it (the spec's own decision D22); no flag is written, nothing faults. -/
def Obligations.IndexArithmetic : Prop :=
  (∀ (s : State) (x : Reg), decodeWord (0xF#4 ++ x ++ 0x1E#8) = .addIVx x ∧
    ∃ t, exec (.addIVx x) s = .next t ∧ t.i.toNat = (s.i.toNat + (s.getV x).toNat) % 65536 ∧
      t.pc = s.pc ∧ OnlyChanges s t [.i]) ∧
  (∀ (s : State) (x : Reg), decodeWord (0xF#4 ++ x ++ 0x29#8) = .ldFVx x ∧
    ∃ t, exec (.ldFVx x) s = .next t ∧ t.i.toNat = 0x050 + 5 * (s.getV x).toNat ∧
      t.pc = s.pc ∧ OnlyChanges s t [.i])

/-- `Fx33` stores the decimal digits of V[x], hundreds first, at I, I + 1, I + 2 of canonical memory (log entry 9); when
I + 2 is above 0xFFF it raises DataOutOfRange and stores nothing (the spec's own decisions D1, D3, D4). -/
def Obligations.BcdStoresThreeDigits : Prop :=
  (∀ (s : State) (x : Reg), Memory.wf s.font s.mem → s.i.toNat + 2 ≤ 0xFFF →
    ∃ t h d o, exec (.ldBVx x) s = .next t ∧
      t.readByte s.i.toNat = some h ∧ t.readByte (s.i.toNat + 1) = some d ∧ t.readByte (s.i.toNat + 2) = some o ∧
      (s.getV x).toNat = 100 * h.toNat + 10 * d.toNat + o.toNat ∧ h.toNat ≤ 2 ∧ d.toNat ≤ 9 ∧ o.toNat ≤ 9 ∧
      t.pc = s.pc ∧ t.i = s.i) ∧
  (∀ (s : State) (x : Reg), s.i.toNat + 2 > 0xFFF →
    exec (.ldBVx x) s = .next { s with fault := ⟨some .dataOutOfRange, s.pc - 2, 0xF#4 ++ x ++ 0x33#8⟩ })

/-- `Fx55` stores V[0] to V[x] at I and on, in canonical memory (log entry 9), and leaves I; when I + x is above 0xFFF it
raises DataOutOfRange and stores nothing (the spec's own decisions D1, D3, D4). -/
def Obligations.StoreWritesRegistersToMemory : Prop :=
  (∀ (s : State) (x : Reg), Memory.wf s.font s.mem → s.i.toNat + x.toNat ≤ 0xFFF →
    ∃ t, exec (.ldMemVx x) s = .next t ∧
      (∀ k ≤ x.toNat, t.readByte (s.i.toNat + k) = some (s.getV (BitVec.ofNat 4 k))) ∧ t.pc = s.pc ∧ t.i = s.i) ∧
  (∀ (s : State) (x : Reg), s.i.toNat + x.toNat > 0xFFF →
    exec (.ldMemVx x) s = .next { s with fault := ⟨some .dataOutOfRange, s.pc - 2, 0xF#4 ++ x ++ 0x55#8⟩ })

/-- `Fx65` loads V[0] to V[x] from I and on, in every memory, and leaves I and the registers above; when I + x is above
0xFFF it raises DataOutOfRange and loads nothing (the spec's own decisions D1, D3, D4). -/
def Obligations.LoadReadsRegistersFromMemory : Prop :=
  (∀ (s : State) (x : Reg), s.i.toNat + x.toNat ≤ 0xFFF →
    ∃ t, exec (.ldVxMem x) s = .next t ∧
      (∀ k ≤ x.toNat, s.readByte (s.i.toNat + k) = some (t.getV (BitVec.ofNat 4 k))) ∧
      (∀ r : Reg, x.toNat < r.toNat → t.getV r = s.getV r) ∧ t.pc = s.pc ∧ t.i = s.i) ∧
  (∀ (s : State) (x : Reg), s.i.toNat + x.toNat > 0xFFF →
    exec (.ldVxMem x) s = .next { s with fault := ⟨some .dataOutOfRange, s.pc - 2, 0xF#4 ++ x ++ 0x65#8⟩ })

/-- What `Fx55` stored in canonical memory (log entry 9), `Fx65` with the same x at the same I loads back, whatever the
registers hold by then. -/
def Obligations.LoadAfterStoreRestoresRegisters : Prop :=
  ∀ (s : State) (x : Reg), Memory.wf s.font s.mem → s.i.toNat + x.toNat ≤ 0xFFF →
    ∃ t, exec (.ldMemVx x) s = .next t ∧
      ∀ u : State, u.font = t.font → u.mem = t.mem → u.i = s.i →
        ∃ w, exec (.ldVxMem x) u = .next w ∧ ∀ k ≤ x.toNat, w.getV (BitVec.ofNat 4 k) = s.getV (BitVec.ofNat 4 k)

/-- A byte of canonical memory (the model's own form, log entry 9) reads as the one last written to it, a write leaves every
other byte alone (R40) and keeps the form. -/
def Obligations.MemoryReadsBackTheLastWrite : Prop :=
  ∀ (f : Font) (m : Memory) (a b : Nat) (x : Byte), Memory.wf f m → a < 0x1000 →
    Memory.wf f (Memory.write f m a x) ∧
    Memory.read f (Memory.write f m a x) b = (if b = a then x else Memory.read f m b)

/-- The model's memory has one form per content (log entry 9): canonical memories that read alike at every address are equal. -/
def Obligations.CanonicalMemoriesThatReadAlikeAreEqual : Prop :=
  ∀ (f : Font) (m m' : Memory), Memory.wf f m → Memory.wf f m' → (∀ a, Memory.read f m a = Memory.read f m' a) → m = m'

/-- Code stored by `Fx55` in canonical memory is what the very next fetch from there reads, at an even or an odd address
(R54, which the spec derives, and R44, its own decision D12). -/
def Obligations.StoredCodeIsFetchedAtOnce : Prop :=
  ∀ (s : State) (x : Reg) (k : Nat), Memory.wf s.font s.mem → s.i.toNat + x.toNat ≤ 0xFFF → k + 1 ≤ x.toNat →
    ∃ t, exec (.ldMemVx x) s = .next t ∧ ∀ u : State, u.font = t.font → u.mem = t.mem →
      u.pc.toNat = s.i.toNat + k →
      u.fetch = some (s.getV (BitVec.ofNat 4 k) ++ s.getV (BitVec.ofNat 4 (k + 1)))

/-! ### Display -/

/-- `00E0` darkens every pixel and changes nothing else. -/
def Obligations.ClearDarkensEveryPixel : Prop :=
  decodeWord 0x00E0 = .cls ∧
  ∀ s : State, ∃ t, exec .cls s = .next t ∧ (∀ r c, t.pixel r c = false) ∧ t.pc = s.pc ∧
    ∀ it : Item, it.isPixel = false → it.same s t

/-- `Dxyn` toggles exactly the on-screen pixels where the sprite has a 1, with no wrap in either direction, and VF is 1
exactly when one of them was lit. Only the rows on the screen are read; when the last of them is above 0xFFF it raises
DataOutOfRange and nothing else changes (the spec's own decisions D1, D3, D4; no reduction of the coordinates is D23).
Bit 7 of a row byte is the leftmost pixel: R133, which the spec marks as general knowledge (D7, log entry 4). -/
def Obligations.DrawTogglesTheSpritesPixels : Prop :=
  (∀ (s : State) (x y : Reg) (n : BitVec 4),
    (∀ i : Nat, i < n.toNat → (s.getV y).toNat + i < 32 → s.i.toNat + i ≤ 0xFFF) →
    ∃ t, exec (.drw x y n) s = .next t ∧
      (∀ (r : Fin 32) (c : Fin 64), t.pixel r c ≠ s.pixel r c ↔
        ∃ i j b, i < n.toNat ∧ j < 8 ∧ r.val = (s.getV y).toNat + i ∧ c.val = (s.getV x).toNat + j ∧
          s.readByte (s.i.toNat + i) = some b ∧ b.getLsbD (7 - j) = true) ∧
      (t.getV 0xF = 1 ∧ (∃ r c, t.pixel r c ≠ s.pixel r c ∧ s.pixel r c = true) ∨
       t.getV 0xF = 0 ∧ ¬ ∃ r c, t.pixel r c ≠ s.pixel r c ∧ s.pixel r c = true) ∧
      t.pc = s.pc ∧ t.fault = s.fault) ∧
  (∀ (s : State) (x y : Reg) (n : BitVec 4) (i : Nat), i < n.toNat → (s.getV y).toNat + i < 32 →
    s.i.toNat + i > 0xFFF →
    exec (.drw x y n) s = .next { s with fault := ⟨some .dataOutOfRange, s.pc - 2, 0xD#4 ++ x ++ y ++ n⟩ })

/-- Drawing a sprite again with the same operands restores the display, and VF is then 1 exactly when the first draw lit a
pixel. R132 item 5 says: exactly when the sprite had an on-screen 1 bit; by R131 that holds only when the first draw met
no lit pixel, and is stated so here (log entry 14). -/
def Obligations.DrawingTwiceRestoresTheDisplay : Prop :=
  ∀ (s t : State) (x y : Reg) (n : BitVec 4), s.fault.cause = none → exec (.drw x y n) s = .next t →
    t.fault.cause = none →
    ∃ u, exec (.drw x y n) { t with v := s.v } = .next u ∧ (∀ r c, u.pixel r c = s.pixel r c) ∧
      (u.getV 0xF = 1 ↔ ∃ r c, s.pixel r c = false ∧ t.pixel r c = true) ∧
      (t.getV 0xF = 0 → (u.getV 0xF = 1 ↔ ∃ r c, t.pixel r c ≠ s.pixel r c))

/-! ### Keys and timers -/

/-- `Ex9E` skips when the key whose number V[x] holds is down, `ExA1` when it is up; when V[x] is above 15 they raise
KeyIndexOutOfRange and change nothing else (the spec's own decisions D3, D4, D6). -/
def Obligations.KeySkipsTestTheLevel : Prop :=
  (∀ (s : State) (x : Reg) (k : Fin 16), (s.getV x).toNat = k.val →
    ∃ t, exec (.skpVx x) s = .next t ∧ t.pc = (if s.keyDown k = true then s.pc + 2 else s.pc) ∧ OnlyChanges s t []) ∧
  (∀ (s : State) (x : Reg) (k : Fin 16), (s.getV x).toNat = k.val →
    ∃ t, exec (.sknpVx x) s = .next t ∧ t.pc = (if s.keyDown k = true then s.pc else s.pc + 2) ∧ OnlyChanges s t []) ∧
  (∀ (s : State) (x : Reg), 15 < (s.getV x).toNat →
    exec (.skpVx x) s = .next { s with fault := ⟨some .keyIndexOutOfRange, s.pc - 2, 0xE#4 ++ x ++ 0x9E#8⟩ } ∧
    exec (.sknpVx x) s = .next { s with fault := ⟨some .keyIndexOutOfRange, s.pc - 2, 0xE#4 ++ x ++ 0xA1#8⟩ })

/-- `Fx0A`: the least key that is down goes to V[x]; with no key down PC goes back by 2 and nothing else changes. -/
def Obligations.KeyWaitTakesTheLeastKey : Prop :=
  (∀ x : Reg, decodeWord (0xF#4 ++ x ++ 0x0A#8) = .ldVxK x) ∧
  (∀ (s : State) (x : Reg) (k : Fin 16), s.keyDown k = true → (∀ j < k, s.keyDown j = false) →
    ∃ t, exec (.ldVxK x) s = .next t ∧ (t.getV x).toNat = k.val ∧ t.pc = s.pc ∧ OnlyChanges s t [.v x]) ∧
  (∀ (s : State) (x : Reg), (∀ k, s.keyDown k = false) →
    ∃ t, exec (.ldVxK x) s = .next t ∧ t.pc = s.pc - 2 ∧ OnlyChanges s t [])

/-- `Fx07` copies DT to V[x], `Fx15` copies V[x] to DT, `Fx18` copies V[x] to ST, and the sound output is then on exactly
when V[x] is not 0. -/
def Obligations.TimerMoves : Prop :=
  (∀ (s : State) (x : Reg), decodeWord (0xF#4 ++ x ++ 0x07#8) = .ldVxDt x ∧
    ∃ t, exec (.ldVxDt x) s = .next t ∧ t.getV x = s.dt ∧ t.pc = s.pc ∧ OnlyChanges s t [.v x]) ∧
  (∀ (s : State) (x : Reg), decodeWord (0xF#4 ++ x ++ 0x15#8) = .ldDtVx x ∧
    ∃ t, exec (.ldDtVx x) s = .next t ∧ t.dt = s.getV x ∧ t.pc = s.pc ∧ OnlyChanges s t [.dt]) ∧
  (∀ (s : State) (x : Reg), decodeWord (0xF#4 ++ x ++ 0x18#8) = .ldStVx x ∧
    ∃ t, exec (.ldStVx x) s = .next t ∧ t.st = s.getV x ∧ (t.soundOn = true ↔ s.getV x ≠ 0) ∧ t.pc = s.pc ∧
      OnlyChanges s t [.st])

/-! ### The host's operations -/

/-- `tick_timers()` subtracts 1 from each timer that is not 0, on its own, changes nothing else, and does nothing when
faulted (the spec's own decision D5). -/
def Obligations.TickDecrementsNonzeroTimers : Prop :=
  (∀ s : State, s.fault.cause = none →
    s.tickTimers.dt.toNat = s.dt.toNat - 1 ∧ s.tickTimers.st.toNat = s.st.toNat - 1 ∧
    s.tickTimers.pc = s.pc ∧ OnlyChanges s s.tickTimers [.dt, .st]) ∧
  (∀ s : State, s.fault.cause ≠ none → s.tickTimers = s)

/-- 255 or more ticks of an unfaulted core leave both timers 0 and everything else as it was (R163). -/
def Obligations.EnoughTicksDrainBothTimers : Prop :=
  ∀ (s : State) (n : Nat), s.fault.cause = none → 255 ≤ n →
    Nat.iterate State.tickTimers n s = { s with dt := 0, st := 0 }

/-- The host's `reset` gives every item the value of R30, from every state; KEY stays as the host holds it (the spec's own
decisions D14, D25). Memory is zero but for the parameter FONT, whatever its 80 bytes are, at 0x050 to 0x09F (D8). With
any FONT given, `State.resetWith` is that state with all keys up (log entry 2), and `State.reset` the one of the default
table, which the spec marks as general knowledge (log entry 3). -/
def Obligations.ResetGivesTheStatedState : Prop :=
  (∀ s : State,
    (∀ x, s.hostReset.getV x = 0) ∧ s.hostReset.i = 0x0000 ∧ s.hostReset.pc = 0x0200 ∧ s.hostReset.sp.val = 0 ∧
    (∀ k : Fin 16, s.hostReset.stack[k.val] = 0x0000) ∧ s.hostReset.dt = 0 ∧ s.hostReset.st = 0 ∧
    (∀ a, a < 0x050 → s.hostReset.readByte a = some 0) ∧
    (∀ k : Fin 80, s.hostReset.readByte (0x050 + k.val) = some s.font[k.val]) ∧
    (∀ a, 0x0A0 ≤ a → a < 0x1000 → s.hostReset.readByte a = some 0) ∧ s.hostReset.font = s.font ∧
    (∀ r c, s.hostReset.pixel r c = false) ∧ s.hostReset.fault = ⟨none, 0x0000, 0x0000⟩ ∧
    s.hostReset.fault.code = 0 ∧ s.hostReset.key = s.key) ∧
  (∀ font : Font, (State.resetWith font).hostReset = State.resetWith font ∧ (State.resetWith font).font = font ∧
    ∀ k, (State.resetWith font).keyDown k = false) ∧
  State.reset = State.resetWith defaultFont

/-- `load(bytes)` of at most 3584 bytes puts byte k at 0x200 + k of canonical memory (log entry 9) and changes nothing else;
a longer one is a LoadError that changes nothing (the spec's own decision D16). -/
def Obligations.LoadCopiesVerbatimOrRefuses : Prop :=
  (∀ (s : State) (bytes : List Byte), Memory.wf s.font s.mem → bytes.length ≤ 3584 →
    (s.load bytes).1 = .ok ∧
    (∀ k (hk : k < bytes.length), (s.load bytes).2.readByte (0x200 + k) = some bytes[k]) ∧
    (∀ a, a < 0x200 ∨ 0x200 + bytes.length ≤ a → (s.load bytes).2.readByte a = s.readByte a) ∧
    (s.load bytes).2.pc = s.pc ∧ (∀ it : Item, (∀ a, it ≠ .mem a) → it.same s (s.load bytes).2)) ∧
  (∀ (s : State) (bytes : List Byte), bytes.length > 3584 → s.load bytes = (.loadError, s))
end

