-- ==== Sys2Proof/Laws/Decode.lean ====
section
/-! SUPPORT. The fields of the words the encoder builds, the words their fields rebuild, and what a mask keeps of them, per
format (30_encoding.md R61, R62). -/

namespace Sys2Proof

/-! ### The bits of the words of each format -/

theorem getLsbD_nnn (t : BitVec 4) (a : Addr12) (i : Nat) :
    (t ++ a : Word).getLsbD i = if i < 12 then a.getLsbD i else t.getLsbD (i - 12) := BitVec.getLsbD_append

theorem getLsbD_xnn (t : BitVec 4) (x : Reg) (b : Byte) (i : Nat) :
    (t ++ x ++ b : Word).getLsbD i =
      if i < 8 then b.getLsbD i else if i - 8 < 4 then x.getLsbD (i - 8) else t.getLsbD (i - 8 - 4) :=
  BitVec.getLsbD_append.trans (by rw [BitVec.getLsbD_append])

theorem getLsbD_xyn (t : BitVec 4) (x y : Reg) (n : BitVec 4) (i : Nat) :
    (t ++ x ++ y ++ n : Word).getLsbD i =
      if i < 4 then n.getLsbD i else if i - 4 < 4 then y.getLsbD (i - 4)
      else if i - 4 - 4 < 4 then x.getLsbD (i - 4 - 4) else t.getLsbD (i - 4 - 4 - 4) :=
  BitVec.getLsbD_append.trans (by rw [BitVec.getLsbD_append, BitVec.getLsbD_append])

/-- Two bit vectors are equal when a slice of one has the bits of the other. -/
theorem extract_eq {w n : Nat} {op : BitVec w} {start : Nat} {v : BitVec n}
    (h : ∀ i < n, op.getLsbD (start + i) = v.getLsbD i) : op.extractLsb' start n = v := by
  apply BitVec.eq_of_getLsbD_eq
  intro i hi
  rw [BitVec.getLsbD_extractLsb', h i hi]
  simp [hi]

/-! ### Format NNN: top ++ nnn -/

@[simp] theorem fieldTop_nnn (t : BitVec 4) (a : Addr12) : fieldTop (t ++ a) = t :=
  extract_eq fun i hi => by
    rw [getLsbD_nnn]
    repeat' split
    all_goals first | omega | (congr 1; omega)

@[simp] theorem fieldNnn_nnn (t : BitVec 4) (a : Addr12) : fieldNnn (t ++ a) = a :=
  extract_eq fun i hi => by
    rw [getLsbD_nnn]
    repeat' split
    all_goals first | omega | (congr 1; omega)

/-- A word is its top nibble and its `nnn` (R61). -/
theorem top_append_nnn (op : Word) : (fieldTop op ++ fieldNnn op : Word) = op := by
  apply BitVec.eq_of_getLsbD_eq
  intro i hi
  rw [getLsbD_nnn]
  by_cases h : i < 12
  · simp [h, fieldNnn]
  · have : i - 12 < 4 := by omega
    simp [h, fieldTop, this, show 12 + (i - 12) = i by omega]

/-! ### Format XNN: top ++ x ++ nn -/

@[simp] theorem fieldTop_xnn (t : BitVec 4) (x : Reg) (b : Byte) : fieldTop (t ++ x ++ b) = t :=
  extract_eq fun i hi => by
    rw [getLsbD_xnn]
    repeat' split
    all_goals first | omega | (congr 1; omega)

@[simp] theorem fieldX_xnn (t : BitVec 4) (x : Reg) (b : Byte) : fieldX (t ++ x ++ b) = x :=
  extract_eq fun i hi => by
    rw [getLsbD_xnn]
    repeat' split
    all_goals first | omega | (congr 1; omega)

@[simp] theorem fieldNn_xnn (t : BitVec 4) (x : Reg) (b : Byte) : fieldNn (t ++ x ++ b) = b :=
  extract_eq fun i hi => by
    rw [getLsbD_xnn]
    repeat' split
    all_goals first | omega | (congr 1; omega)

/-- A word is its top nibble, its `x` and its `nn` (R61). -/
theorem top_append_xnn (op : Word) : (fieldTop op ++ fieldX op ++ fieldNn op : Word) = op := by
  apply BitVec.eq_of_getLsbD_eq
  intro i hi
  rw [getLsbD_xnn]
  by_cases h : i < 8
  · simp [h, fieldNn]
  by_cases h2 : i - 8 < 4
  · simp [h, h2, fieldX, show 8 + (i - 8) = i by omega]
  · have : i - 8 - 4 < 4 := by omega
    simp [h, h2, fieldTop, this, show 12 + (i - 8 - 4) = i by omega]

/-! ### Format XYN: top ++ x ++ y ++ n -/

@[simp] theorem fieldTop_xyn (t : BitVec 4) (x y : Reg) (n : BitVec 4) : fieldTop (t ++ x ++ y ++ n) = t :=
  extract_eq fun i hi => by
    rw [getLsbD_xyn]
    repeat' split
    all_goals first | omega | (congr 1; omega)

@[simp] theorem fieldX_xyn (t : BitVec 4) (x y : Reg) (n : BitVec 4) : fieldX (t ++ x ++ y ++ n) = x :=
  extract_eq fun i hi => by
    rw [getLsbD_xyn]
    repeat' split
    all_goals first | omega | (congr 1; omega)

@[simp] theorem fieldY_xyn (t : BitVec 4) (x y : Reg) (n : BitVec 4) : fieldY (t ++ x ++ y ++ n) = y :=
  extract_eq fun i hi => by
    rw [getLsbD_xyn]
    repeat' split
    all_goals first | omega | (congr 1; omega)

@[simp] theorem fieldN_xyn (t : BitVec 4) (x y : Reg) (n : BitVec 4) : fieldN (t ++ x ++ y ++ n) = n :=
  extract_eq fun i hi => by
    rw [getLsbD_xyn]
    repeat' split
    all_goals first | omega | (congr 1; omega)

/-- A word is its four nibbles (R61). -/
theorem top_append_xyn (op : Word) : (fieldTop op ++ fieldX op ++ fieldY op ++ fieldN op : Word) = op := by
  apply BitVec.eq_of_getLsbD_eq
  intro i hi
  rw [getLsbD_xyn]
  by_cases h : i < 4
  · simp [h, fieldN]
  by_cases h2 : i - 4 < 4
  · simp [h, h2, fieldY, show 4 + (i - 4) = i by omega]
  by_cases h3 : i - 4 - 4 < 4
  · simp [h, h2, h3, fieldX, show 8 + (i - 4 - 4) = i by omega]
  · have : i - 4 - 4 - 4 < 4 := by omega
    simp [h, h2, h3, fieldTop, this, show 12 + (i - 4 - 4 - 4) = i by omega]

/-! ### What the masks of R64 keep -/

theorem mask_nnn (t : BitVec 4) (a : Addr12) : (t ++ a : Word) &&& 0xF000 = t ++ 0#12 := by
  apply BitVec.eq_of_getLsbD_eq
  intro i hi
  rw [BitVec.getLsbD_and, getLsbD_nnn, getLsbD_nnn]
  interval_cases i <;> simp

theorem mask_xnn (t : BitVec 4) (x : Reg) (b : Byte) : (t ++ x ++ b : Word) &&& 0xF000 = t ++ 0#12 := by
  apply BitVec.eq_of_getLsbD_eq
  intro i hi
  rw [BitVec.getLsbD_and, getLsbD_xnn, getLsbD_nnn]
  interval_cases i <;> simp

theorem mask_xyn_top (t : BitVec 4) (x y : Reg) (n : BitVec 4) : (t ++ x ++ y ++ n : Word) &&& 0xF000 = t ++ 0#12 := by
  apply BitVec.eq_of_getLsbD_eq
  intro i hi
  rw [BitVec.getLsbD_and, getLsbD_xyn, getLsbD_nnn]
  interval_cases i <;> simp

theorem mask_xyn (t : BitVec 4) (x y : Reg) (n : BitVec 4) : (t ++ x ++ y ++ n : Word) &&& 0xF00F = t ++ 0#4 ++ 0#4 ++ n := by
  apply BitVec.eq_of_getLsbD_eq
  intro i hi
  rw [BitVec.getLsbD_and, getLsbD_xyn, getLsbD_xyn]
  interval_cases i <;> simp

theorem mask_xkk (t : BitVec 4) (x : Reg) (kk : Byte) : (t ++ x ++ kk : Word) &&& 0xF0FF = t ++ 0#4 ++ kk := by
  apply BitVec.eq_of_getLsbD_eq
  intro i hi
  rw [BitVec.getLsbD_and, getLsbD_xnn, getLsbD_xnn]
  interval_cases i <;> simp

/-! ### Bytes -/

/-- The two bytes of a word compose to it, big-endian (20_memory.md R43). -/
theorem wordOfBytes_extract (op : Word) : wordOfBytes (op.extractLsb' 8 8) (op.extractLsb' 0 8) = op := by
  apply BitVec.eq_of_getLsbD_eq
  intro i hi
  rw [wordOfBytes, BitVec.getLsbD_append]
  by_cases h : i < 8
  · simp [h]
  · have : i - 8 < 8 := by omega
    simp [h, this, show 8 + (i - 8) = i by omega]

theorem decodeTableWord_eq (nbits w : Nat) : decodeTableWord nbits w = some (decodeWord (tableWord nbits w)) := by
  simp [decodeTableWord, decodeBytes, wordOfBytes_extract]

end Sys2Proof
end

