-- ==== Sys2Proof/Laws/State.lean ====
section
/-! SUPPORT. One lemma per field per update of State, and what the accessors read after each update. -/

namespace Sys2Proof.Machine

variable (s : State)

/-! ### The reset state, FONT given -/

@[simp] theorem State.resetWith_pc (font : Font) : (State.resetWith font).pc = 0x200 := rfl
@[simp] theorem State.resetWith_mem (font : Font) : (State.resetWith font).mem = [] := rfl
@[simp] theorem State.resetWith_fault (font : Font) : (State.resetWith font).fault = ⟨none, 0, 0⟩ := rfl
@[simp] theorem State.resetWith_font (font : Font) : (State.resetWith font).font = font := rfl
theorem State.reset_eq : State.reset = State.resetWith defaultFont := rfl

/-! ### `setV` -/

@[simp] theorem State.setV_i (x : Reg) (b : Byte) : (s.setV x b).i = s.i := rfl
@[simp] theorem State.setV_pc (x : Reg) (b : Byte) : (s.setV x b).pc = s.pc := rfl
@[simp] theorem State.setV_sp (x : Reg) (b : Byte) : (s.setV x b).sp = s.sp := rfl
@[simp] theorem State.setV_stack (x : Reg) (b : Byte) : (s.setV x b).stack = s.stack := rfl
@[simp] theorem State.setV_dt (x : Reg) (b : Byte) : (s.setV x b).dt = s.dt := rfl
@[simp] theorem State.setV_st (x : Reg) (b : Byte) : (s.setV x b).st = s.st := rfl
@[simp] theorem State.setV_mem (x : Reg) (b : Byte) : (s.setV x b).mem = s.mem := rfl
@[simp] theorem State.setV_disp (x : Reg) (b : Byte) : (s.setV x b).disp = s.disp := rfl
@[simp] theorem State.setV_key (x : Reg) (b : Byte) : (s.setV x b).key = s.key := rfl
@[simp] theorem State.setV_fault (x : Reg) (b : Byte) : (s.setV x b).fault = s.fault := rfl
@[simp] theorem State.setV_randomDraws (x : Reg) (b : Byte) : (s.setV x b).randomDraws = s.randomDraws := rfl
@[simp] theorem State.setV_font (x : Reg) (b : Byte) : (s.setV x b).font = s.font := rfl

/-! ### `setI` -/

@[simp] theorem State.setI_v (w : Word) : (s.setI w).v = s.v := rfl
@[simp] theorem State.setI_i (w : Word) : (s.setI w).i = w := rfl
@[simp] theorem State.setI_pc (w : Word) : (s.setI w).pc = s.pc := rfl
@[simp] theorem State.setI_sp (w : Word) : (s.setI w).sp = s.sp := rfl
@[simp] theorem State.setI_stack (w : Word) : (s.setI w).stack = s.stack := rfl
@[simp] theorem State.setI_dt (w : Word) : (s.setI w).dt = s.dt := rfl
@[simp] theorem State.setI_st (w : Word) : (s.setI w).st = s.st := rfl
@[simp] theorem State.setI_mem (w : Word) : (s.setI w).mem = s.mem := rfl
@[simp] theorem State.setI_disp (w : Word) : (s.setI w).disp = s.disp := rfl
@[simp] theorem State.setI_key (w : Word) : (s.setI w).key = s.key := rfl
@[simp] theorem State.setI_fault (w : Word) : (s.setI w).fault = s.fault := rfl
@[simp] theorem State.setI_randomDraws (w : Word) : (s.setI w).randomDraws = s.randomDraws := rfl
@[simp] theorem State.setI_font (w : Word) : (s.setI w).font = s.font := rfl

/-! ### `setPc` -/

@[simp] theorem State.setPc_v (w : Word) : (s.setPc w).v = s.v := rfl
@[simp] theorem State.setPc_i (w : Word) : (s.setPc w).i = s.i := rfl
@[simp] theorem State.setPc_pc (w : Word) : (s.setPc w).pc = w := rfl
@[simp] theorem State.setPc_sp (w : Word) : (s.setPc w).sp = s.sp := rfl
@[simp] theorem State.setPc_stack (w : Word) : (s.setPc w).stack = s.stack := rfl
@[simp] theorem State.setPc_dt (w : Word) : (s.setPc w).dt = s.dt := rfl
@[simp] theorem State.setPc_st (w : Word) : (s.setPc w).st = s.st := rfl
@[simp] theorem State.setPc_mem (w : Word) : (s.setPc w).mem = s.mem := rfl
@[simp] theorem State.setPc_disp (w : Word) : (s.setPc w).disp = s.disp := rfl
@[simp] theorem State.setPc_key (w : Word) : (s.setPc w).key = s.key := rfl
@[simp] theorem State.setPc_fault (w : Word) : (s.setPc w).fault = s.fault := rfl
@[simp] theorem State.setPc_randomDraws (w : Word) : (s.setPc w).randomDraws = s.randomDraws := rfl
@[simp] theorem State.setPc_font (w : Word) : (s.setPc w).font = s.font := rfl

/-! ### `setDt` -/

@[simp] theorem State.setDt_v (b : Byte) : (s.setDt b).v = s.v := rfl
@[simp] theorem State.setDt_i (b : Byte) : (s.setDt b).i = s.i := rfl
@[simp] theorem State.setDt_pc (b : Byte) : (s.setDt b).pc = s.pc := rfl
@[simp] theorem State.setDt_sp (b : Byte) : (s.setDt b).sp = s.sp := rfl
@[simp] theorem State.setDt_stack (b : Byte) : (s.setDt b).stack = s.stack := rfl
@[simp] theorem State.setDt_dt (b : Byte) : (s.setDt b).dt = b := rfl
@[simp] theorem State.setDt_st (b : Byte) : (s.setDt b).st = s.st := rfl
@[simp] theorem State.setDt_mem (b : Byte) : (s.setDt b).mem = s.mem := rfl
@[simp] theorem State.setDt_disp (b : Byte) : (s.setDt b).disp = s.disp := rfl
@[simp] theorem State.setDt_key (b : Byte) : (s.setDt b).key = s.key := rfl
@[simp] theorem State.setDt_fault (b : Byte) : (s.setDt b).fault = s.fault := rfl
@[simp] theorem State.setDt_randomDraws (b : Byte) : (s.setDt b).randomDraws = s.randomDraws := rfl
@[simp] theorem State.setDt_font (b : Byte) : (s.setDt b).font = s.font := rfl

/-! ### `setSt` -/

@[simp] theorem State.setSt_v (b : Byte) : (s.setSt b).v = s.v := rfl
@[simp] theorem State.setSt_i (b : Byte) : (s.setSt b).i = s.i := rfl
@[simp] theorem State.setSt_pc (b : Byte) : (s.setSt b).pc = s.pc := rfl
@[simp] theorem State.setSt_sp (b : Byte) : (s.setSt b).sp = s.sp := rfl
@[simp] theorem State.setSt_stack (b : Byte) : (s.setSt b).stack = s.stack := rfl
@[simp] theorem State.setSt_dt (b : Byte) : (s.setSt b).dt = s.dt := rfl
@[simp] theorem State.setSt_st (b : Byte) : (s.setSt b).st = b := rfl
@[simp] theorem State.setSt_mem (b : Byte) : (s.setSt b).mem = s.mem := rfl
@[simp] theorem State.setSt_disp (b : Byte) : (s.setSt b).disp = s.disp := rfl
@[simp] theorem State.setSt_key (b : Byte) : (s.setSt b).key = s.key := rfl
@[simp] theorem State.setSt_fault (b : Byte) : (s.setSt b).fault = s.fault := rfl
@[simp] theorem State.setSt_randomDraws (b : Byte) : (s.setSt b).randomDraws = s.randomDraws := rfl
@[simp] theorem State.setSt_font (b : Byte) : (s.setSt b).font = s.font := rfl

/-! ### `raise` -/

@[simp] theorem State.raise_v (f : Fault) (addr op : Word) : (s.raise f addr op).v = s.v := rfl
@[simp] theorem State.raise_i (f : Fault) (addr op : Word) : (s.raise f addr op).i = s.i := rfl
@[simp] theorem State.raise_pc (f : Fault) (addr op : Word) : (s.raise f addr op).pc = s.pc := rfl
@[simp] theorem State.raise_sp (f : Fault) (addr op : Word) : (s.raise f addr op).sp = s.sp := rfl
@[simp] theorem State.raise_stack (f : Fault) (addr op : Word) : (s.raise f addr op).stack = s.stack := rfl
@[simp] theorem State.raise_dt (f : Fault) (addr op : Word) : (s.raise f addr op).dt = s.dt := rfl
@[simp] theorem State.raise_st (f : Fault) (addr op : Word) : (s.raise f addr op).st = s.st := rfl
@[simp] theorem State.raise_mem (f : Fault) (addr op : Word) : (s.raise f addr op).mem = s.mem := rfl
@[simp] theorem State.raise_disp (f : Fault) (addr op : Word) : (s.raise f addr op).disp = s.disp := rfl
@[simp] theorem State.raise_key (f : Fault) (addr op : Word) : (s.raise f addr op).key = s.key := rfl
@[simp] theorem State.raise_fault (f : Fault) (addr op : Word) : (s.raise f addr op).fault = ⟨some f, addr, op⟩ := rfl
@[simp] theorem State.raise_randomDraws (f : Fault) (addr op : Word) : (s.raise f addr op).randomDraws = s.randomDraws := rfl
@[simp] theorem State.raise_font (f : Fault) (addr op : Word) : (s.raise f addr op).font = s.font := rfl

/-! ### V registers -/

/-- A write to V[x] changes V[x] only (10_state.md R11). -/
theorem State.getV_setV (x y : Reg) (b : Byte) : (s.setV x b).getV y = if y = x then b else s.getV y := by
  unfold State.getV State.setV
  simp only [Vector.getElem_set]
  by_cases h : y = x
  · simp [h]
  · have : x.toNat ≠ y.toNat := fun e => h (BitVec.eq_of_toNat_eq e.symm)
    simp [h, this]

@[simp] theorem State.getV_setV_same (x : Reg) (b : Byte) : (s.setV x b).getV x = b := by simp [State.getV_setV]

theorem State.getV_setV_of_ne {x y : Reg} (h : y ≠ x) (b : Byte) : (s.setV x b).getV y = s.getV y := by
  simp [State.getV_setV, h]

@[simp] theorem State.getV_setI (w : Word) (x : Reg) : (s.setI w).getV x = s.getV x := rfl
@[simp] theorem State.getV_setPc (w : Word) (x : Reg) : (s.setPc w).getV x = s.getV x := rfl
@[simp] theorem State.getV_setDt (b : Byte) (x : Reg) : (s.setDt b).getV x = s.getV x := rfl
@[simp] theorem State.getV_setSt (b : Byte) (x : Reg) : (s.setSt b).getV x = s.getV x := rfl
@[simp] theorem State.getV_raise (f : Fault) (addr op : Word) (x : Reg) : (s.raise f addr op).getV x = s.getV x := rfl

/-! ### The other accessors -/

@[simp] theorem State.readByte_setV (x : Reg) (b : Byte) (a : Nat) : (s.setV x b).readByte a = s.readByte a := rfl
@[simp] theorem State.fetchWord_setV (x : Reg) (b : Byte) (a : Nat) : (s.setV x b).fetchWord a = s.fetchWord a := rfl
@[simp] theorem State.pixel_setV (x : Reg) (b : Byte) (r : Fin 32) (c : Fin 64) : (s.setV x b).pixel r c = s.pixel r c := rfl
@[simp] theorem State.keyDown_setV (x : Reg) (b : Byte) (k : Fin 16) : (s.setV x b).keyDown k = s.keyDown k := rfl
@[simp] theorem State.firstKey_setV (x : Reg) (b : Byte) : (s.setV x b).firstKey = s.firstKey := rfl
@[simp] theorem State.faulted_setV (x : Reg) (b : Byte) : (s.setV x b).faulted = s.faulted := rfl
@[simp] theorem State.effAddr_setV (x : Reg) (b : Byte) (k : Nat) : (s.setV x b).effAddr k = s.effAddr k := rfl

@[simp] theorem State.readByte_setI (w : Word) (a : Nat) : (s.setI w).readByte a = s.readByte a := rfl
@[simp] theorem State.fetchWord_setI (w : Word) (a : Nat) : (s.setI w).fetchWord a = s.fetchWord a := rfl
@[simp] theorem State.pixel_setI (w : Word) (r : Fin 32) (c : Fin 64) : (s.setI w).pixel r c = s.pixel r c := rfl
@[simp] theorem State.keyDown_setI (w : Word) (k : Fin 16) : (s.setI w).keyDown k = s.keyDown k := rfl
@[simp] theorem State.firstKey_setI (w : Word) : (s.setI w).firstKey = s.firstKey := rfl
@[simp] theorem State.faulted_setI (w : Word) : (s.setI w).faulted = s.faulted := rfl

@[simp] theorem State.readByte_setPc (w : Word) (a : Nat) : (s.setPc w).readByte a = s.readByte a := rfl
@[simp] theorem State.fetchWord_setPc (w : Word) (a : Nat) : (s.setPc w).fetchWord a = s.fetchWord a := rfl
@[simp] theorem State.pixel_setPc (w : Word) (r : Fin 32) (c : Fin 64) : (s.setPc w).pixel r c = s.pixel r c := rfl
@[simp] theorem State.keyDown_setPc (w : Word) (k : Fin 16) : (s.setPc w).keyDown k = s.keyDown k := rfl
@[simp] theorem State.firstKey_setPc (w : Word) : (s.setPc w).firstKey = s.firstKey := rfl
@[simp] theorem State.faulted_setPc (w : Word) : (s.setPc w).faulted = s.faulted := rfl
@[simp] theorem State.effAddr_setPc (w : Word) (k : Nat) : (s.setPc w).effAddr k = s.effAddr k := rfl

@[simp] theorem State.readByte_setDt (b : Byte) (a : Nat) : (s.setDt b).readByte a = s.readByte a := rfl
@[simp] theorem State.fetchWord_setDt (b : Byte) (a : Nat) : (s.setDt b).fetchWord a = s.fetchWord a := rfl
@[simp] theorem State.pixel_setDt (b : Byte) (r : Fin 32) (c : Fin 64) : (s.setDt b).pixel r c = s.pixel r c := rfl
@[simp] theorem State.keyDown_setDt (b : Byte) (k : Fin 16) : (s.setDt b).keyDown k = s.keyDown k := rfl
@[simp] theorem State.firstKey_setDt (b : Byte) : (s.setDt b).firstKey = s.firstKey := rfl
@[simp] theorem State.faulted_setDt (b : Byte) : (s.setDt b).faulted = s.faulted := rfl
@[simp] theorem State.effAddr_setDt (b : Byte) (k : Nat) : (s.setDt b).effAddr k = s.effAddr k := rfl

@[simp] theorem State.readByte_setSt (b : Byte) (a : Nat) : (s.setSt b).readByte a = s.readByte a := rfl
@[simp] theorem State.fetchWord_setSt (b : Byte) (a : Nat) : (s.setSt b).fetchWord a = s.fetchWord a := rfl
@[simp] theorem State.pixel_setSt (b : Byte) (r : Fin 32) (c : Fin 64) : (s.setSt b).pixel r c = s.pixel r c := rfl
@[simp] theorem State.keyDown_setSt (b : Byte) (k : Fin 16) : (s.setSt b).keyDown k = s.keyDown k := rfl
@[simp] theorem State.firstKey_setSt (b : Byte) : (s.setSt b).firstKey = s.firstKey := rfl
@[simp] theorem State.faulted_setSt (b : Byte) : (s.setSt b).faulted = s.faulted := rfl
@[simp] theorem State.effAddr_setSt (b : Byte) (k : Nat) : (s.setSt b).effAddr k = s.effAddr k := rfl

@[simp] theorem State.readByte_raise (f : Fault) (addr op : Word) (a : Nat) : (s.raise f addr op).readByte a = s.readByte a := rfl
@[simp] theorem State.fetchWord_raise (f : Fault) (addr op : Word) (a : Nat) : (s.raise f addr op).fetchWord a = s.fetchWord a := rfl
@[simp] theorem State.pixel_raise (f : Fault) (addr op : Word) (r : Fin 32) (c : Fin 64) : (s.raise f addr op).pixel r c = s.pixel r c := rfl
@[simp] theorem State.keyDown_raise (f : Fault) (addr op : Word) (k : Fin 16) : (s.raise f addr op).keyDown k = s.keyDown k := rfl
@[simp] theorem State.firstKey_raise (f : Fault) (addr op : Word) : (s.raise f addr op).firstKey = s.firstKey := rfl
@[simp] theorem State.faulted_raise (f : Fault) (addr op : Word) : (s.raise f addr op).faulted = true := rfl
@[simp] theorem State.effAddr_raise (f : Fault) (addr op : Word) (k : Nat) : (s.raise f addr op).effAddr k = s.effAddr k := rfl

theorem State.raiseIn_eq (f : Fault) (i : Instr) : s.raiseIn f i = s.raise f (s.pc - 2) (encode i) := rfl

@[simp] theorem State.effAddr_zero : s.effAddr 0 = s.i.toNat := rfl

@[simp] theorem State.advance_eq : s.advance = s.setPc (s.pc + 2) := rfl

@[simp] theorem State.raiseFetch_eq : s.raiseFetch = s.raise .fetchOutOfRange s.pc 0 := rfl

/-! ### Skips (41_flow.md R94) -/

theorem State.skipIf_eq (c : Bool) : s.skipIf c = s.setPc (if c then s.pc + 2 else s.pc) := by
  cases c <;> rfl

end Sys2Proof.Machine
end

