-- ==== Sys2Proof/Laws/Flags.lean ====
section
/-! SUPPORT. The flag law (42_alu.md R100) and the widening of immediates, as lemmas. -/

namespace Sys2Proof.Machine

variable (s : State)

/-! ### The flag byte (10_state.md R12) -/

theorem flagByte_zero_or_one (f : Bool) : flagByte f = 0 ∨ flagByte f = 1 := by cases f <;> simp [flagByte]

theorem flagByte_toNat (f : Bool) : (flagByte f).toNat = f.toNat := by cases f <;> rfl

@[simp] theorem flagByte_eq_one (f : Bool) : flagByte f = 1 ↔ f = true := by cases f <;> simp [flagByte]

@[simp] theorem flagByte_eq_zero (f : Bool) : flagByte f = 0 ↔ f = false := by cases f <;> simp [flagByte]

/-! ### Result, then flag (42_alu.md R100) -/

/-- The flag is the last write: VF is the flag, for every x. -/
@[simp] theorem State.getV_setResultFlag_regF (x : Reg) (b : Byte) (f : Bool) :
    (s.setResultFlag x b f).getV 0xF = flagByte f := State.getV_setV_same _ _ _

/-- The result stands in V[x] when x is not 0xF. -/
theorem State.getV_setResultFlag_same {x : Reg} (h : x ≠ 0xF) (b : Byte) (f : Bool) :
    (s.setResultFlag x b f).getV x = b :=
  (State.getV_setV_of_ne _ h _).trans (State.getV_setV_same _ _ _)

/-- No other register changes. -/
theorem State.getV_setResultFlag_of_ne {x y : Reg} (hx : y ≠ x) (hf : y ≠ 0xF) (b : Byte) (f : Bool) :
    (s.setResultFlag x b f).getV y = s.getV y :=
  (State.getV_setV_of_ne _ hf _).trans (State.getV_setV_of_ne _ hx _)

@[simp] theorem State.setResultFlag_i (x : Reg) (b : Byte) (f : Bool) : (s.setResultFlag x b f).i = s.i := rfl
@[simp] theorem State.setResultFlag_pc (x : Reg) (b : Byte) (f : Bool) : (s.setResultFlag x b f).pc = s.pc := rfl
@[simp] theorem State.setResultFlag_sp (x : Reg) (b : Byte) (f : Bool) : (s.setResultFlag x b f).sp = s.sp := rfl
@[simp] theorem State.setResultFlag_stack (x : Reg) (b : Byte) (f : Bool) : (s.setResultFlag x b f).stack = s.stack := rfl
@[simp] theorem State.setResultFlag_dt (x : Reg) (b : Byte) (f : Bool) : (s.setResultFlag x b f).dt = s.dt := rfl
@[simp] theorem State.setResultFlag_st (x : Reg) (b : Byte) (f : Bool) : (s.setResultFlag x b f).st = s.st := rfl
@[simp] theorem State.setResultFlag_mem (x : Reg) (b : Byte) (f : Bool) : (s.setResultFlag x b f).mem = s.mem := rfl
@[simp] theorem State.setResultFlag_disp (x : Reg) (b : Byte) (f : Bool) : (s.setResultFlag x b f).disp = s.disp := rfl
@[simp] theorem State.setResultFlag_key (x : Reg) (b : Byte) (f : Bool) : (s.setResultFlag x b f).key = s.key := rfl
@[simp] theorem State.setResultFlag_fault (x : Reg) (b : Byte) (f : Bool) : (s.setResultFlag x b f).fault = s.fault := rfl
@[simp] theorem State.setResultFlag_randomDraws (x : Reg) (b : Byte) (f : Bool) : (s.setResultFlag x b f).randomDraws = s.randomDraws := rfl
@[simp] theorem State.setResultFlag_font (x : Reg) (b : Byte) (f : Bool) : (s.setResultFlag x b f).font = s.font := rfl

/-! ### A random draw (10_state.md R25) -/

theorem State.drawRandom_eq : s.drawRandom = (Config.randomByte s.randomDraws, { s with randomDraws := s.randomDraws + 1 }) :=
  rfl

/-! ### Immediates are zero-extended (30_encoding.md R68) -/

@[simp] theorem zextAddr_toNat (a : Addr12) : (zextAddr a).toNat = a.toNat := by
  have := a.isLt
  simp [zextAddr, BitVec.toNat_setWidth]; omega

@[simp] theorem zextByte_toNat (b : Byte) : (zextByte b).toNat = b.toNat := by
  have := b.isLt
  simp [zextByte, BitVec.toNat_setWidth]; omega

/-- The sum of `Bnnn` is exact in 16 bits (42_alu.md R113). -/
theorem zextAddr_add_zextByte_toNat (a : Addr12) (b : Byte) : (zextAddr a + zextByte b).toNat = a.toNat + b.toNat := by
  have := a.isLt
  have := b.isLt
  rw [BitVec.toNat_add, zextAddr_toNat, zextByte_toNat, Nat.mod_eq_of_lt (by omega)]

end Sys2Proof.Machine
end

