-- ==== Sys2Proof/Laws/Memory.lean ====
section
/-! SUPPORT. The laws of memory: read after write, what a write leaves alone, and that every memory operation keeps the
canonical form. -/

namespace Sys2Proof.Machine

variable {f : Font}

/-! ### One byte -/

theorem Memory.read_cons (b a : Nat) (w : Byte) (m : Memory) :
    Memory.read f ((b, w) :: m) a = if a = b then w else Memory.read f m a := rfl

/-- An address below or beside every entry reads as after reset. -/
theorem Memory.read_eq_resetByte {m : Memory} {a : Nat} (h : ∀ p ∈ m, p.1 ≠ a) :
    Memory.read f m a = Memory.resetByte f a := by
  induction m with
  | nil => rfl
  | cons p m ih =>
    have hp : a ≠ p.1 := fun e => h p (by simp) e.symm
    rw [Memory.read_cons, if_neg hp]
    exact ih fun q hq => h q (by simp [hq])

theorem Memory.read_enter_of_ne {a b : Nat} (h : b ≠ a) (x : Byte) (m : Memory) :
    Memory.read f (Memory.enter f a x m) b = Memory.read f m b := by
  unfold Memory.enter
  split
  · rfl
  · rw [Memory.read_cons, if_neg h]

theorem Memory.read_enter_same {a : Nat} {m : Memory} (h : ∀ p ∈ m, p.1 ≠ a) (x : Byte) :
    Memory.read f (Memory.enter f a x m) a = x := by
  unfold Memory.enter
  split
  · rename_i hx; rw [Memory.read_eq_resetByte h, hx]
  · rw [Memory.read_cons, if_pos rfl]

/-- A write leaves every other address alone, in every list. -/
theorem Memory.read_write_of_ne (m : Memory) {a b : Nat} (h : b ≠ a) (x : Byte) :
    Memory.read f (Memory.write f m a x) b = Memory.read f m b := by
  induction m with
  | nil => exact Memory.read_enter_of_ne h x []
  | cons p m ih =>
    obtain ⟨c, w⟩ := p
    unfold Memory.write
    split
    · exact Memory.read_enter_of_ne h x _
    split
    · rename_i hac
      subst hac
      rw [Memory.read_enter_of_ne h, Memory.read_cons, if_neg h]
    · simp only [Memory.read_cons, ih]

/-- A byte reads as the one last written to it, in canonical memory (20_memory.md R40). -/
theorem Memory.read_write_same {m : Memory} (hm : Memory.wf f m) (a : Nat) (x : Byte) :
    Memory.read f (Memory.write f m a x) a = x := by
  induction m with
  | nil => exact Memory.read_enter_same (by simp) x
  | cons p m ih =>
    obtain ⟨c, w⟩ := p
    have hlt := (List.pairwise_cons.1 hm.1).1
    unfold Memory.write
    split
    · rename_i hac
      refine Memory.read_enter_same (fun q hq => ?_) x
      rcases List.mem_cons.1 hq with rfl | hq
      · exact Nat.ne_of_gt hac
      · exact Nat.ne_of_gt (Nat.lt_trans hac (hlt q hq))
    split
    · rename_i hac
      subst hac
      exact Memory.read_enter_same (fun q hq => Nat.ne_of_gt (hlt q hq)) x
    · rename_i hac
      rw [Memory.read_cons, if_neg hac]
      exact ih ⟨(List.pairwise_cons.1 hm.1).2, fun q hq => hm.2 q (by simp [hq])⟩

theorem Memory.mem_enter {a : Nat} {x : Byte} {m : Memory} {p : Host.Cell} (h : p ∈ Memory.enter f a x m) :
    p = (a, x) ∨ p ∈ m := by
  unfold Memory.enter at h
  split at h
  · exact .inr h
  · simpa using h

theorem Memory.mem_write {a : Nat} {x : Byte} {p : Host.Cell} :
    ∀ {m : Memory}, p ∈ Memory.write f m a x → p = (a, x) ∨ p ∈ m
  | [], h => Memory.mem_enter h
  | (c, w) :: m, h => by
    unfold Memory.write at h
    split at h
    · exact Memory.mem_enter h
    split at h
    · exact (Memory.mem_enter h).imp_right (List.mem_cons_of_mem _)
    · rcases List.mem_cons.1 h with h | h
      · exact .inr (by simp [h])
      · exact (Memory.mem_write h).imp_right (List.mem_cons_of_mem _)

theorem Memory.wf_enter {a : Nat} {m : Memory} (ha : a < Config.memSize) (x : Byte)
    (hm : Memory.wf f m) (hlt : ∀ p ∈ m, a < p.1) : Memory.wf f (Memory.enter f a x m) := by
  unfold Memory.enter
  split
  · exact hm
  · rename_i hx
    refine ⟨List.pairwise_cons.2 ⟨hlt, hm.1⟩, fun p hp => ?_⟩
    rcases List.mem_cons.1 hp with rfl | hp
    · exact ⟨ha, hx⟩
    · exact hm.2 p hp

/-- Storing one byte inside MEM keeps the canonical form. -/
theorem Memory.wf_write {a : Nat} (ha : a < Config.memSize) (x : Byte) :
    ∀ {m : Memory}, Memory.wf f m → Memory.wf f (Memory.write f m a x)
  | [], hm => Memory.wf_enter ha x hm (by simp)
  | (c, w) :: m, hm => by
    have hc := List.pairwise_cons.1 hm.1
    have htail : Memory.wf f m := ⟨hc.2, fun q hq => hm.2 q (by simp [hq])⟩
    unfold Memory.write
    split
    · rename_i hac
      refine Memory.wf_enter ha x hm fun q hq => ?_
      rcases List.mem_cons.1 hq with rfl | hq
      · exact hac
      · exact Nat.lt_trans hac (hc.1 q hq)
    split
    · rename_i hac
      subst hac
      exact Memory.wf_enter ha x htail hc.1
    · rename_i h1 h2
      have ih := Memory.wf_write ha x htail
      refine ⟨List.pairwise_cons.2 ⟨fun q hq => ?_, ih.1⟩, fun q hq => ?_⟩
      · rcases Memory.mem_write hq with rfl | hq
        · exact Nat.lt_of_le_of_ne (Nat.le_of_not_lt h1) fun e => h2 e.symm
        · exact hc.1 q hq
      · rcases List.mem_cons.1 hq with rfl | hq
        · exact hm.2 _ (by simp)
        · exact ih.2 q hq

/-! ### Runs of bytes -/

/-- A run of writes leaves the bytes outside it alone. -/
theorem Memory.read_writeRun_outside {a : Nat} : ∀ (xs : List Byte) (m : Memory) (base : Nat),
    (a < base ∨ base + xs.length ≤ a) → Memory.read f (Memory.writeRun f m base xs) a = Memory.read f m a
  | [], _, _, _ => rfl
  | x :: xs, m, base, h => by
    have hl : (x :: xs).length = xs.length + 1 := rfl
    rw [Memory.writeRun, Memory.read_writeRun_outside xs _ _ (by omega), Memory.read_write_of_ne m (by omega)]

/-- A run of writes inside MEM keeps the canonical form. -/
theorem Memory.wf_writeRun : ∀ (xs : List Byte) {m : Memory} (base : Nat), Memory.wf f m →
    base + xs.length ≤ Config.memSize → Memory.wf f (Memory.writeRun f m base xs)
  | [], _, _, hm, _ => hm
  | x :: xs, m, base, hm, h => by
    have hl : (x :: xs).length = xs.length + 1 := rfl
    exact Memory.wf_writeRun xs (base + 1) (Memory.wf_write (by omega) x hm) (by omega)

/-- A run of writes inside canonical memory reads back. -/
theorem Memory.read_writeRun_inside : ∀ (xs : List Byte) {m : Memory} (base : Nat), Memory.wf f m →
    base + xs.length ≤ Config.memSize → ∀ (k : Nat) (hk : k < xs.length),
    Memory.read f (Memory.writeRun f m base xs) (base + k) = xs[k]
  | [], _, _, _, _, _, hk => absurd hk (by simp)
  | x :: xs, m, base, hm, h, k, hk => by
    have hl : (x :: xs).length = xs.length + 1 := rfl
    have hw := Memory.wf_write (a := base) (by omega) x hm
    cases k with
    | zero =>
      rw [Memory.writeRun, Memory.read_writeRun_outside xs _ _ (by omega)]
      exact Memory.read_write_same hm base x
    | succ k =>
      rw [Memory.writeRun, show base + (k + 1) = base + 1 + k by omega]
      exact Memory.read_writeRun_inside xs (base + 1) hw (by omega) k (by omega)

@[simp] theorem Memory.length_readRun (m : Memory) : ∀ (len base : Nat), (Memory.readRun f m base len).length = len
  | 0, _ => rfl
  | len + 1, base => by simp [Memory.readRun, Memory.length_readRun m len]

theorem Memory.getElem_readRun (m : Memory) : ∀ (len base k : Nat) (hk : k < (Memory.readRun f m base len).length),
    (Memory.readRun f m base len)[k] = Memory.read f m (base + k)
  | 0, _, _, hk => absurd hk (by simp [Memory.readRun])
  | len + 1, base, 0, _ => rfl
  | len + 1, base, k + 1, hk => by
    simp only [Memory.readRun, List.getElem_cons_succ]
    rw [Memory.getElem_readRun m len (base + 1) k]
    congr 1; omega

/-! ### Reset contents (10_state.md R30) -/

theorem Memory.resetByte_of_lt {a : Nat} (h : a < Config.fontBase) : Memory.resetByte f a = 0 :=
  dif_neg fun hc => Nat.not_le.2 h hc.1

theorem Memory.resetByte_of_ge {a : Nat} (h : Config.fontBase + 80 ≤ a) : Memory.resetByte f a = 0 :=
  dif_neg (by omega)

theorem Memory.resetByte_font (k : Nat) (hk : k < 80) : Memory.resetByte f (Config.fontBase + k) = f[k] := by
  simp [Memory.resetByte, hk]

theorem Memory.wf_nil : Memory.wf f [] := by simp [Memory.wf]

end Sys2Proof.Machine
end

