-- ==== Sys2Proof/Laws/Ops.lean ====
section
/-! SUPPORT. One spec lemma per shared operation: all it can do. -/

namespace Sys2Proof.Machine

variable {s t : State}

/-! ### Taking a fault (60_exceptions.md R84, R155, R156) -/

theorem orRaise_some (f : Fault) (i : Instr) : orRaise s f i (some t) = .next t := rfl

theorem orRaise_none (f : Fault) (i : Instr) : orRaise s f i none = .next (s.raiseIn f i) := rfl

/-- An operation that may fault answers the operation's state, or the state before it with FAULT written. -/
theorem orRaise_eq_next {f : Fault} {i : Instr} {r : Option State} (h : orRaise s f i r = .next t) :
    r = some t ∨ (r = none ∧ t = s.raiseIn f i) := by
  cases r with
  | none => exact .inr ⟨rfl, by simpa [orRaise] using h.symm⟩
  | some u => exact .inl (by simpa [orRaise] using h)

/-! ### Accessors -/

theorem State.readByte_of_lt (s : State) {a : Nat} (h : a < Config.memSize) :
    s.readByte a = some (Memory.read s.font s.mem a) := if_pos h

theorem State.readByte_of_ge (s : State) {a : Nat} (h : Config.memSize ≤ a) : s.readByte a = none :=
  if_neg (Nat.not_lt.2 h)

/-- Two states with the same memory and font read the same bytes. -/
theorem State.readByte_congr (hf : t.font = s.font) (h : t.mem = s.mem) (a : Nat) : t.readByte a = s.readByte a := by
  simp [State.readByte, hf, h]

theorem State.fetchWord_of_lt (s : State) {a : Nat} (h : a + 1 < Config.memSize) :
    s.fetchWord a = some (wordOfBytes (Memory.read s.font s.mem a) (Memory.read s.font s.mem (a + 1))) := by
  simp [State.fetchWord, State.readByte, h, Nat.lt_of_succ_lt h]

theorem State.fetchWord_of_ge (s : State) {a : Nat} (h : Config.memSize ≤ a + 1) : s.fetchWord a = none := by
  unfold State.fetchWord
  rw [State.readByte_of_ge s h]
  split <;> simp_all

theorem State.pixel_eq (s : State) (r : Fin 32) (c : Fin 64) : s.pixel r c = Display.pixel s.disp r c := rfl

theorem inMemory_iff {base len : Nat} : inMemory base len = true ↔ len = 0 ∨ base + len ≤ Config.memSize := by
  simp [inMemory]

/-! ### The stack (41_flow.md R90, R92) -/

/-- A push succeeds when SP is not 16: it writes STACK[SP], then adds 1 to SP. -/
theorem State.push_eq_some (h : s.push = some t) :
    ∃ hs : s.sp.val < 16,
      t = { s with stack := s.stack.set s.sp.val s.pc hs, sp := ⟨s.sp.val + 1, by omega⟩ } := by
  unfold State.push at h
  split at h
  · rename_i hs; exact ⟨hs, by simpa using h.symm⟩
  · simp at h

theorem State.push_eq_none : s.push = none ↔ s.sp.val = 16 := by
  have := s.sp.isLt
  simp [State.push]; omega

/-- A pop succeeds when SP is not 0: it subtracts 1 from SP and gives the slot it then names. -/
theorem State.pop_eq_some {w : Word} (h : s.pop = some (w, t)) :
    ∃ hs : 0 < s.sp.val, w = s.stack[s.sp.val - 1]'(by omega) ∧ t = { s with sp := ⟨s.sp.val - 1, by omega⟩ } := by
  unfold State.pop at h
  split at h
  · rename_i hs
    simp only [Option.some.injEq, Prod.mk.injEq] at h
    exact ⟨hs, h.1.symm, h.2.symm⟩
  · simp at h

theorem State.pop_eq_none : s.pop = none ↔ s.sp.val = 0 := by
  simp only [State.pop]
  split <;> simp <;> omega

/-! ### Runs of memory (20_memory.md R46, 43_index_memory.md R126) -/

theorem State.loadRun_eq_some {base len : Nat} {bs : List Byte} (h : s.loadRun base len = some bs) :
    inMemory base len = true ∧ bs = Memory.readRun s.font s.mem base len := by
  unfold State.loadRun at h
  split at h
  · exact ⟨‹_›, by simpa using h.symm⟩
  · simp at h

theorem State.loadRun_eq_none {base len : Nat} : s.loadRun base len = none ↔ inMemory base len = false := by
  simp [State.loadRun]

/-- A store of a run changes memory only, and only when the whole run is inside MEM. -/
theorem State.storeRun_eq_some {base : Nat} {xs : List Byte} (h : s.storeRun base xs = some t) :
    inMemory base xs.length = true ∧ t = { s with mem := Memory.writeRun s.font s.mem base xs } := by
  unfold State.storeRun at h
  split at h
  · exact ⟨‹_›, by simpa using h.symm⟩
  · simp at h

theorem State.storeRun_eq_none {base : Nat} {xs : List Byte} :
    s.storeRun base xs = none ↔ inMemory base xs.length = false := by
  simp [State.storeRun]

/-- A store of a run leaves every byte outside it alone. -/
theorem State.readByte_storeRun_outside {base a : Nat} {xs : List Byte} (h : s.storeRun base xs = some t)
    (ha : a < base ∨ base + xs.length ≤ a) : t.readByte a = s.readByte a := by
  obtain ⟨-, rfl⟩ := State.storeRun_eq_some h
  simp [State.readByte, Memory.read_writeRun_outside xs s.mem base ha]

/-- A stored run reads back, byte by byte, in canonical memory. -/
theorem State.readByte_storeRun_inside {base : Nat} {xs : List Byte} (hm : Memory.wf s.font s.mem)
    (h : s.storeRun base xs = some t) {k : Nat} (hk : k < xs.length) : t.readByte (base + k) = some xs[k] := by
  obtain ⟨hin, rfl⟩ := State.storeRun_eq_some h
  have hr : base + xs.length ≤ Config.memSize := by rcases inMemory_iff.1 hin with h | h <;> omega
  rw [State.readByte_of_lt _ (by omega)]
  exact congrArg some (Memory.read_writeRun_inside xs base hm hr k hk)

/-- A store of a run keeps memory canonical. -/
theorem State.wf_storeRun {base : Nat} {xs : List Byte} (hm : Memory.wf s.font s.mem) (h : s.storeRun base xs = some t) :
    Memory.wf t.font t.mem := by
  obtain ⟨hin, rfl⟩ := State.storeRun_eq_some h
  rcases inMemory_iff.1 hin with h0 | h0
  · rw [List.length_eq_zero_iff.1 h0]; exact hm
  · exact Memory.wf_writeRun xs base hm h0

/-! ### Runs of registers (43_index_memory.md R124, R125) -/

theorem length_regsUpTo (s : State) (x : Reg) : (s.regsUpTo x).length = x.toNat + 1 := by
  have := x.isLt
  simp [State.regsUpTo, countUpTo]; omega

theorem getElem_regsUpTo (s : State) (x : Reg) {k : Nat} (hk : k < (s.regsUpTo x).length) :
    (s.regsUpTo x)[k] = s.getV (BitVec.ofNat 4 k) := by
  have h1 := length_regsUpTo s x
  have h2 := x.isLt
  have h3 : k % 16 = k := Nat.mod_eq_of_lt (by omega)
  simp [State.regsUpTo, State.getV, h3]

theorem length_bcdDigits (b : Byte) : (bcdDigits b).length = 3 := rfl

/-- What loading registers changes: V registers only. -/
theorem State.loadRegs_eq (s : State) : ∀ (bs : List Byte) (k : Nat), s.loadRegs k bs = { s with v := (s.loadRegs k bs).v }
  | [], _ => rfl
  | b :: bs, k => State.loadRegs_eq (s.setV (BitVec.ofNat 4 k) b) bs (k + 1)

/-- The registers from number `k` on get the bytes in turn; the others are left alone. -/
theorem State.getV_loadRegs (x : Reg) : ∀ (bs : List Byte) (s : State) (k : Nat), k + bs.length ≤ 16 →
    (s.loadRegs k bs).getV x = if h : k ≤ x.toNat ∧ x.toNat - k < bs.length then bs[x.toNat - k] else s.getV x
  | [], s, k, _ => by simp [State.loadRegs]
  | b :: bs, s, k, hk => by
    have hl : (b :: bs).length = bs.length + 1 := rfl
    have hx := x.isLt
    have hmod : k % 16 = k := Nat.mod_eq_of_lt (by omega)
    rw [State.loadRegs, State.getV_loadRegs x bs _ (k + 1) (by omega)]
    by_cases h0 : x.toNat = k
    · have hxk : x = BitVec.ofNat 4 k := BitVec.eq_of_toNat_eq (by simp [hmod, h0])
      rw [dif_neg (by omega), dif_pos (by omega)]
      have : x.toNat - k = 0 := by omega
      simp only [this, List.getElem_cons_zero]
      rw [hxk, State.getV_setV_same]
    · have hne : x ≠ BitVec.ofNat 4 k := fun e => h0 (by rw [e]; simp [hmod])
      by_cases h1 : k + 1 ≤ x.toNat ∧ x.toNat - (k + 1) < bs.length
      · rw [dif_pos h1, dif_pos (by omega)]
        have : x.toNat - k = (x.toNat - (k + 1)) + 1 := by omega
        simp only [this, List.getElem_cons_succ]
      · rw [dif_neg h1, dif_neg (by omega), State.getV_setV_of_ne s hne]

/-! ### Keys (R140, R142) -/

theorem keyIndex_eq_some {b : Byte} {k : Fin 16} : keyIndex b = some k ↔ b.toNat = k.val := by
  unfold keyIndex
  split
  · simp [Fin.ext_iff]
  · have := k.isLt; simp; omega

theorem keyIndex_eq_none {b : Byte} : keyIndex b = none ↔ 15 < b.toNat := by
  simp [keyIndex]; omega

/-- The scan finds the least key that is down. -/
theorem State.firstKey_eq_some {k : Fin 16} (h : s.firstKey = some k) :
    s.keyDown k = true ∧ ∀ j < k, s.keyDown j = false := by
  obtain ⟨hk, as, bs, he, hj⟩ := List.find?_eq_some_iff_append.1 h
  refine ⟨hk, fun j hlt => ?_⟩
  have hs : (List.finRange 16).Pairwise (· < ·) := List.pairwise_lt_finRange 16
  have hmem : j ∈ as ++ k :: bs := he ▸ List.mem_finRange j
  rcases List.mem_append.1 hmem with hm | hm
  · simpa using hj j hm
  · rw [he] at hs
    have hs2 := (List.pairwise_append.1 hs).2.1
    rcases List.mem_cons.1 hm with rfl | hm
    · exact absurd hlt (lt_irrefl _)
    · exact absurd hlt (lt_asymm ((List.pairwise_cons.1 hs2).1 j hm))

theorem State.firstKey_eq_none : s.firstKey = none ↔ ∀ k, s.keyDown k = false := by
  simp [State.firstKey, List.find?_eq_none]

/-! ### Faults recorded -/

theorem State.faulted_eq_false : s.faulted = false ↔ s.fault.cause = none := by
  simp [State.faulted]

theorem FaultRecord.code_eq_zero (f : FaultRecord) : f.code = 0 ↔ f.cause = none := by
  rcases f with ⟨_ | c, _, _⟩
  · simp [FaultRecord.code]
  · cases c <;> simp [FaultRecord.code]

/-- A finished draw writes DISP and VF, and nothing else (44_display.md R131). -/
theorem State.setDrawn_eq (s : State) (p : Display × Bool) :
    s.setDrawn p = { s with disp := p.1, v := s.v.set 15 (flagByte p.2) } := rfl

end Sys2Proof.Machine
end

