-- ==== Sys2Proof/Laws/Display.lean ====
section
/-! SUPPORT. What a sprite draw does, pixel by pixel (44_display.md R131): the new pixel is the old one XOR the sprite's
bit there, and the collision is an OR over the sprite. -/

namespace Sys2Proof.Machine

theorem Display.pixel_blank (r : Fin 32) (c : Fin 64) : Display.pixel Display.blank r c = false := by
  simp [Display.pixel, Display.blank]

/-- A write to one pixel changes that pixel only. -/
theorem Display.pixel_setPixel (d : Display) (r r' : Fin 32) (c c' : Fin 64) (b : Bool) :
    Display.pixel (Display.setPixel d r c b) r' c' = if r' = r ∧ c' = c then b else Display.pixel d r' c' := by
  unfold Display.pixel Display.setPixel
  rw [Vector.getElem_set]
  by_cases hr : r' = r
  · subst hr
    rw [if_pos rfl, Vector.getElem_set]
    by_cases hc : c' = c
    · simp [hc]
    · have : c.val ≠ c'.val := fun e => hc (Fin.ext e.symm)
      simp [hc, this]
  · have : r.val ≠ r'.val := fun e => hr (Fin.ext e.symm)
    simp [hr, this]

/-- The bit of a row byte that lands on column `c` when the byte is drawn from column `vx`. -/
def rowBitAt (vx : Nat) (b : Byte) (c : Nat) : Bool := decide (vx ≤ c ∧ c < vx + 8) && spriteBit b (c - vx)

theorem drawBit_pixel (r r' : Fin 32) (c' : Fin 64) (col : Nat) (bit : Bool) (acc : Display × Bool) :
    Display.pixel (drawBit r col bit acc).1 r' c' =
      xor (Display.pixel acc.1 r' c') (decide (r' = r ∧ c'.val = col) && bit) := by
  unfold drawBit
  split
  · rename_i h
    simp only [Display.pixel_setPixel]
    by_cases hrc : r' = r ∧ c'.val = col
    · obtain ⟨rfl, rfl⟩ := hrc; simp
    · have : ¬(r' = r ∧ c' = ⟨col, h⟩) := fun e => hrc ⟨e.1, congrArg Fin.val e.2⟩
      simp [hrc, this]
  · rename_i h
    have : ¬(r' = r ∧ c'.val = col) := fun e => h (e.2 ▸ c'.isLt)
    simp [this]

theorem drawBit_coll (r : Fin 32) (col : Nat) (bit : Bool) (acc : Display × Bool) :
    (drawBit r col bit acc).2 = true ↔
      acc.2 = true ∨ ∃ c : Fin 64, c.val = col ∧ bit = true ∧ Display.pixel acc.1 r c = true := by
  unfold drawBit
  split
  · rename_i h
    simp only [Bool.or_eq_true, Bool.and_eq_true]
    refine or_congr Iff.rfl ⟨fun ⟨h1, h2⟩ => ⟨⟨col, h⟩, rfl, h1, h2⟩, ?_⟩
    rintro ⟨c, rfl, h1, h2⟩
    exact ⟨h1, h2⟩
  · rename_i h
    refine ⟨.inl, ?_⟩
    rintro (h' | ⟨c, hc, -⟩)
    · exact h'
    · exact absurd c.isLt (hc ▸ h)

/-- The first `n` bits of a row, drawn left to right. -/
theorem foldl_drawBit (r : Fin 32) (vx : Nat) (b : Byte) (acc : Display × Bool) (n : Nat) :
    let out := (List.range n).foldl (fun acc j => drawBit r (vx + j) (spriteBit b j) acc) acc
    (∀ (r' : Fin 32) (c' : Fin 64), Display.pixel out.1 r' c' =
      xor (Display.pixel acc.1 r' c')
        (decide (r' = r ∧ vx ≤ c'.val ∧ c'.val < vx + n) && spriteBit b (c'.val - vx))) ∧
    (out.2 = true ↔ acc.2 = true ∨ ∃ c : Fin 64, (vx ≤ c.val ∧ c.val < vx + n) ∧
      spriteBit b (c.val - vx) = true ∧ Display.pixel acc.1 r c = true) := by
  induction n with
  | zero =>
    refine ⟨fun r' c' => ?_, ?_⟩
    · have : ¬(r' = r ∧ vx ≤ c'.val ∧ c'.val < vx + 0) := by omega
      rw [decide_eq_false this]; simp
    · refine ⟨.inl, ?_⟩
      rintro (h | ⟨c, hc, -⟩)
      · exact h
      · omega
  | succ n ih =>
    simp only [List.range_succ, List.foldl_append, List.foldl_cons, List.foldl_nil] at ih ⊢
    obtain ⟨ihp, ihc⟩ := ih
    refine ⟨fun r' c' => ?_, ?_⟩
    · rw [drawBit_pixel, ihp]
      by_cases h1 : r' = r ∧ c'.val = vx + n
      · have h2 : ¬(r' = r ∧ vx ≤ c'.val ∧ c'.val < vx + n) := by omega
        have h3 : r' = r ∧ vx ≤ c'.val ∧ c'.val < vx + (n + 1) := by omega
        simp [h1]
      · have h2 : (r' = r ∧ vx ≤ c'.val ∧ c'.val < vx + (n + 1)) ↔ (r' = r ∧ vx ≤ c'.val ∧ c'.val < vx + n) := by
          omega
        simp [h1, h2]
    · rw [drawBit_coll, ihc]
      constructor
      · rintro ((h | ⟨c, hc, h⟩) | ⟨c, hc, hb, hp⟩)
        · exact .inl h
        · exact .inr ⟨c, by omega, h⟩
        · have h2 : ¬(r = r ∧ vx ≤ c.val ∧ c.val < vx + n) := by omega
          have h4 : c.val - vx = n := by omega
          rw [ihp, decide_eq_false h2, Bool.false_and, Bool.xor_false] at hp
          exact .inr ⟨c, by omega, by rw [h4]; exact hb, hp⟩
      · rintro (h | ⟨c, hc, hb, hp⟩)
        · exact .inl (.inl h)
        · by_cases h1 : c.val < vx + n
          · exact .inl (.inr ⟨c, ⟨hc.1, h1⟩, hb, hp⟩)
          · have h2 : ¬(r = r ∧ vx ≤ c.val ∧ c.val < vx + n) := by omega
            have h4 : c.val - vx = n := by omega
            refine .inr ⟨c, by omega, by rw [h4] at hb; exact hb, ?_⟩
            rw [ihp, decide_eq_false h2, Bool.false_and, Bool.xor_false]; exact hp

theorem drawRow_pixel (r r' : Fin 32) (c' : Fin 64) (vx : Nat) (b : Byte) (acc : Display × Bool) :
    Display.pixel (drawRow r vx b acc).1 r' c' =
      xor (Display.pixel acc.1 r' c') (decide (r' = r) && rowBitAt vx b c'.val) := by
  rw [drawRow, (foldl_drawBit r vx b acc 8).1]
  by_cases h : r' = r <;> simp [h, rowBitAt]

theorem drawRow_coll (r : Fin 32) (vx : Nat) (b : Byte) (acc : Display × Bool) :
    (drawRow r vx b acc).2 = true ↔
      acc.2 = true ∨ ∃ c : Fin 64, rowBitAt vx b c.val = true ∧ Display.pixel acc.1 r c = true := by
  rw [drawRow, (foldl_drawBit r vx b acc 8).2]
  simp [rowBitAt, and_assoc]

/-- A drawn sprite toggles the pixels where its bit is 1 (R131, R132 item 5). -/
theorem drawRows_pixel (vx : Nat) (r' : Fin 32) (c' : Fin 64) :
    ∀ (rows : List Byte) (vy : Nat) (acc : Display × Bool),
    Display.pixel (drawRows vx vy rows acc).1 r' c' =
      xor (Display.pixel acc.1 r' c')
        (decide (vy ≤ r'.val ∧ r'.val - vy < rows.length) && rowBitAt vx (rows.getD (r'.val - vy) 0) c'.val)
  | [], vy, acc => by simp [drawRows]
  | b :: rows, vy, acc => by
    have hl : (b :: rows).length = rows.length + 1 := rfl
    rw [drawRows]
    split
    · rename_i hvy
      rw [drawRows_pixel vx r' c' rows (vy + 1), drawRow_pixel]
      by_cases h0 : r'.val = vy
      · have h1 : r' = ⟨vy, hvy⟩ := Fin.ext h0
        have h2 : ¬(vy + 1 ≤ r'.val ∧ r'.val - (vy + 1) < rows.length) := by omega
        have h3 : vy ≤ r'.val ∧ r'.val - vy < (b :: rows).length := by omega
        have h4 : r'.val - vy = 0 := by omega
        simp [h1]
      · have h1 : r' ≠ ⟨vy, hvy⟩ := fun e => h0 (congrArg Fin.val e)
        by_cases h2 : vy + 1 ≤ r'.val ∧ r'.val - (vy + 1) < rows.length
        · have h3 : vy ≤ r'.val ∧ r'.val - vy < (b :: rows).length := by omega
          have h4 : r'.val - vy = r'.val - (vy + 1) + 1 := by omega
          rw [decide_eq_true h2, decide_eq_true h3, h4, List.getD_cons_succ]
          simp [h1]
        · have h3 : ¬(vy ≤ r'.val ∧ r'.val - vy < (b :: rows).length) := by omega
          simp only [h1, h2, h3]; simp
    · have h3 : ¬(vy ≤ r'.val ∧ r'.val - vy < (b :: rows).length) := by
        have := r'.isLt; omega
      simp only [h3]; simp

/-- The collision of a sprite: some on-screen pixel that was 1 met a bit that is 1 (R131, R132 item 8). -/
theorem drawRows_coll (vx : Nat) : ∀ (rows : List Byte) (vy : Nat) (acc : Display × Bool),
    (drawRows vx vy rows acc).2 = true ↔ acc.2 = true ∨ ∃ (r : Fin 32) (c : Fin 64),
      (vy ≤ r.val ∧ r.val - vy < rows.length) ∧ rowBitAt vx (rows.getD (r.val - vy) 0) c.val = true ∧
      Display.pixel acc.1 r c = true
  | [], vy, acc => by simp [drawRows]
  | b :: rows, vy, acc => by
    have hl : (b :: rows).length = rows.length + 1 := rfl
    rw [drawRows]
    split
    · rename_i hvy
      rw [drawRows_coll vx rows (vy + 1), drawRow_coll]
      constructor
      · rintro ((h | ⟨c, hb, hp⟩) | ⟨r, c, hr, hb, hp⟩)
        · exact .inl h
        · exact .inr ⟨⟨vy, hvy⟩, c, by simp, by simpa using hb, hp⟩
        · have hne : r ≠ ⟨vy, hvy⟩ := fun e => by have := congrArg Fin.val e; simp at this; omega
          rw [drawRow_pixel] at hp
          have h4 : r.val - vy = r.val - (vy + 1) + 1 := by omega
          exact .inr ⟨r, c, by omega, by rw [h4, List.getD_cons_succ]; exact hb, by simpa [hne] using hp⟩
      · rintro (h | ⟨r, c, hr, hb, hp⟩)
        · exact .inl (.inl h)
        · by_cases h0 : r.val = vy
          · have h1 : r = ⟨vy, hvy⟩ := Fin.ext h0
            subst h1
            exact .inl (.inr ⟨c, by simpa using hb, hp⟩)
          · have hne : r ≠ ⟨vy, hvy⟩ := fun e => h0 (congrArg Fin.val e)
            have h4 : r.val - vy = r.val - (vy + 1) + 1 := by omega
            rw [h4, List.getD_cons_succ] at hb
            refine .inr ⟨r, c, by omega, hb, ?_⟩
            rw [drawRow_pixel]; simpa [hne] using hp
    · refine ⟨.inl, ?_⟩
      rintro (h | ⟨r, c, hr, -⟩)
      · exact h
      · have := r.isLt; omega

end Sys2Proof.Machine
end

