-- ==== Sys2Proof/Laws/PerInstr.lean ====
section
/-! SUPPORT. Statements made once per constructor of `Instr`.

`EncodeSelectsRow`: the word of a well-formed instruction selects the row of the opcode map (30_encoding.md R64) that its
pattern names. -/

namespace Sys2Proof.Laws.EncodeSelectsRow

/-- The word of the instruction selects its own row of R64; an unknown opcode has no row. -/
def Statement (i : Instr) : Prop :=
  i.wf = true → ∀ p, i.pattern = some p → ∃ r ∈ opcodeRows, r.pattern = p ∧ r.selects (encode i)

/-- The common form of the proofs: name the row, compute its mask on the encoding. -/
theorem of_row {i : Instr} (r : OpcodeRow) (hr : r ∈ opcodeRows) (hp : i.pattern = some r.pattern)
    (hs : r.selects (encode i)) : Statement i := by
  intro _ p h
  rw [hp] at h
  exact ⟨r, hr, by simpa using h, hs⟩

theorem cls : Statement .cls := of_row ⟨.p00E0, 0xFFFF, 0x00E0⟩ (by decide) rfl (by decide)
theorem ret : Statement .ret := of_row ⟨.p00EE, 0xFFFF, 0x00EE⟩ (by decide) rfl (by decide)
theorem jp (a : Addr12) : Statement (.jp a) := of_row ⟨.p1nnn, 0xF000, 0x1000⟩ (by decide) rfl (mask_nnn _ _)
theorem call (a : Addr12) : Statement (.call a) := of_row ⟨.p2nnn, 0xF000, 0x2000⟩ (by decide) rfl (mask_nnn _ _)
theorem seVxNn (x : Reg) (b : Byte) : Statement (.seVxNn x b) :=
  of_row ⟨.p3xnn, 0xF000, 0x3000⟩ (by decide) rfl (mask_xnn _ _ _)
theorem sneVxNn (x : Reg) (b : Byte) : Statement (.sneVxNn x b) :=
  of_row ⟨.p4xnn, 0xF000, 0x4000⟩ (by decide) rfl (mask_xnn _ _ _)
theorem seVxVy (x y : Reg) : Statement (.seVxVy x y) :=
  of_row ⟨.p5xy0, 0xF00F, 0x5000⟩ (by decide) rfl (mask_xyn _ _ _ _)
theorem ldVxNn (x : Reg) (b : Byte) : Statement (.ldVxNn x b) :=
  of_row ⟨.p6xnn, 0xF000, 0x6000⟩ (by decide) rfl (mask_xnn _ _ _)
theorem addVxNn (x : Reg) (b : Byte) : Statement (.addVxNn x b) :=
  of_row ⟨.p7xnn, 0xF000, 0x7000⟩ (by decide) rfl (mask_xnn _ _ _)
theorem ldVxVy (x y : Reg) : Statement (.ldVxVy x y) :=
  of_row ⟨.p8xy0, 0xF00F, 0x8000⟩ (by decide) rfl (mask_xyn _ _ _ _)
theorem orVxVy (x y : Reg) : Statement (.orVxVy x y) :=
  of_row ⟨.p8xy1, 0xF00F, 0x8001⟩ (by decide) rfl (mask_xyn _ _ _ _)
theorem andVxVy (x y : Reg) : Statement (.andVxVy x y) :=
  of_row ⟨.p8xy2, 0xF00F, 0x8002⟩ (by decide) rfl (mask_xyn _ _ _ _)
theorem xorVxVy (x y : Reg) : Statement (.xorVxVy x y) :=
  of_row ⟨.p8xy3, 0xF00F, 0x8003⟩ (by decide) rfl (mask_xyn _ _ _ _)
theorem addVxVy (x y : Reg) : Statement (.addVxVy x y) :=
  of_row ⟨.p8xy4, 0xF00F, 0x8004⟩ (by decide) rfl (mask_xyn _ _ _ _)
theorem subVxVy (x y : Reg) : Statement (.subVxVy x y) :=
  of_row ⟨.p8xy5, 0xF00F, 0x8005⟩ (by decide) rfl (mask_xyn _ _ _ _)
theorem shrVx (x y : Reg) : Statement (.shrVx x y) :=
  of_row ⟨.p8xy6, 0xF00F, 0x8006⟩ (by decide) rfl (mask_xyn _ _ _ _)
theorem subnVxVy (x y : Reg) : Statement (.subnVxVy x y) :=
  of_row ⟨.p8xy7, 0xF00F, 0x8007⟩ (by decide) rfl (mask_xyn _ _ _ _)
theorem shlVx (x y : Reg) : Statement (.shlVx x y) :=
  of_row ⟨.p8xyE, 0xF00F, 0x800E⟩ (by decide) rfl (mask_xyn _ _ _ _)
theorem sneVxVy (x y : Reg) : Statement (.sneVxVy x y) :=
  of_row ⟨.p9xy0, 0xF00F, 0x9000⟩ (by decide) rfl (mask_xyn _ _ _ _)
theorem ldINnn (a : Addr12) : Statement (.ldINnn a) := of_row ⟨.pAnnn, 0xF000, 0xA000⟩ (by decide) rfl (mask_nnn _ _)
theorem jpV0 (a : Addr12) : Statement (.jpV0 a) := of_row ⟨.pBnnn, 0xF000, 0xB000⟩ (by decide) rfl (mask_nnn _ _)
theorem rndVxNn (x : Reg) (b : Byte) : Statement (.rndVxNn x b) :=
  of_row ⟨.pCxnn, 0xF000, 0xC000⟩ (by decide) rfl (mask_xnn _ _ _)
theorem drw (x y : Reg) (n : BitVec 4) : Statement (.drw x y n) :=
  of_row ⟨.pDxyn, 0xF000, 0xD000⟩ (by decide) rfl (mask_xyn_top _ _ _ _)
theorem skpVx (x : Reg) : Statement (.skpVx x) := of_row ⟨.pEx9E, 0xF0FF, 0xE09E⟩ (by decide) rfl (mask_xkk _ _ _)
theorem sknpVx (x : Reg) : Statement (.sknpVx x) := of_row ⟨.pExA1, 0xF0FF, 0xE0A1⟩ (by decide) rfl (mask_xkk _ _ _)
theorem ldVxDt (x : Reg) : Statement (.ldVxDt x) := of_row ⟨.pFx07, 0xF0FF, 0xF007⟩ (by decide) rfl (mask_xkk _ _ _)
theorem ldVxK (x : Reg) : Statement (.ldVxK x) := of_row ⟨.pFx0A, 0xF0FF, 0xF00A⟩ (by decide) rfl (mask_xkk _ _ _)
theorem ldDtVx (x : Reg) : Statement (.ldDtVx x) := of_row ⟨.pFx15, 0xF0FF, 0xF015⟩ (by decide) rfl (mask_xkk _ _ _)
theorem ldStVx (x : Reg) : Statement (.ldStVx x) := of_row ⟨.pFx18, 0xF0FF, 0xF018⟩ (by decide) rfl (mask_xkk _ _ _)
theorem addIVx (x : Reg) : Statement (.addIVx x) := of_row ⟨.pFx1E, 0xF0FF, 0xF01E⟩ (by decide) rfl (mask_xkk _ _ _)
theorem ldFVx (x : Reg) : Statement (.ldFVx x) := of_row ⟨.pFx29, 0xF0FF, 0xF029⟩ (by decide) rfl (mask_xkk _ _ _)
theorem ldBVx (x : Reg) : Statement (.ldBVx x) := of_row ⟨.pFx33, 0xF0FF, 0xF033⟩ (by decide) rfl (mask_xkk _ _ _)
theorem ldMemVx (x : Reg) : Statement (.ldMemVx x) := of_row ⟨.pFx55, 0xF0FF, 0xF055⟩ (by decide) rfl (mask_xkk _ _ _)
theorem ldVxMem (x : Reg) : Statement (.ldVxMem x) := of_row ⟨.pFx65, 0xF0FF, 0xF065⟩ (by decide) rfl (mask_xkk _ _ _)
theorem unknown (op : Word) : Statement (.unknown op) := fun _ _ h => by simp [Instr.pattern] at h

end Sys2Proof.Laws.EncodeSelectsRow
end

