-- ==== Sys2Proof/Laws/Step.lean ====
section
/-! SUPPORT. What a step and the host's operations can do, said once: the inversion lemma of `step`, one lemma per field of
the operations of a session, and the placing of a word for the fetch. -/

namespace Sys2Proof.Machine

variable {s t : State}

/-! ### The fetch (40_cycle.md R81) -/

theorem State.fetch_eq_none (s : State) : s.fetch = none ↔ Config.memSize ≤ s.pc.toNat + 1 := by
  constructor
  · intro h
    by_contra hn
    rw [State.fetch, State.fetchWord_of_lt s (by omega)] at h
    simp at h
  · exact State.fetchWord_of_ge s

theorem State.fetch_eq_some (h : s.pc.toNat + 1 < Config.memSize) :
    s.fetch = some (wordOfBytes (Memory.read s.font s.mem s.pc.toNat) (Memory.read s.font s.mem (s.pc.toNat + 1))) :=
  State.fetchWord_of_lt s h

/-! ### The step (R80) -/

/-- Everything a step can do: nothing when faulted, a fetch fault, or the decoded instruction in the advanced state. -/
theorem step_cases (s : State) :
    (s.faulted = true ∧ step s = .next s) ∨
    (s.faulted = false ∧ Config.memSize ≤ s.pc.toNat + 1 ∧ step s = .next s.raiseFetch) ∨
    (∃ op, s.faulted = false ∧ s.pc.toNat + 1 < Config.memSize ∧ s.fetch = some op ∧
      step s = exec (decodeWord op) s.advance) := by
  cases hf : s.faulted with
  | true => exact .inl ⟨rfl, by simp [step, hf]⟩
  | false =>
    right
    by_cases h : s.pc.toNat + 1 < Config.memSize
    · exact .inr ⟨_, rfl, h, State.fetch_eq_some h, by simp [step, hf, State.fetch_eq_some h]⟩
    · have hn := (State.fetch_eq_none s).2 (by omega)
      exact .inl ⟨rfl, by omega, by simp [step, hf, hn]⟩

/-! ### Placing a word for the fetch (log entry 10) -/

theorem State.readyToFetch_pc (s : State) : s.readyToFetch.pc.toNat + 1 < Config.memSize := by
  show (if s.pc.toNat + 1 < Config.memSize then s.pc else BitVec.ofNat 16 Config.progBase).toNat + 1 < Config.memSize
  split
  · assumption
  · decide

theorem State.readyToFetch_faulted (s : State) : s.readyToFetch.faulted = false := by
  cases h : s.faulted <;> simp_all [State.readyToFetch, State.faulted]

theorem State.readyToFetch_mem (s : State) : s.readyToFetch.mem = s.mem := rfl

theorem State.withFetchWord_fetch (hm : Memory.wf s.font s.mem) (nbits w : Nat) :
    (s.withFetchWord nbits w).fetch = some (tableWord nbits w) := by
  have hpc := State.readyToFetch_pc s
  have hlen : ([(tableWord nbits w).extractLsb' 8 8, (tableWord nbits w).extractLsb' 0 8] : List Byte).length = 2 := rfl
  have hr := Memory.read_writeRun_inside
    [(tableWord nbits w).extractLsb' 8 8, (tableWord nbits w).extractLsb' 0 8] s.readyToFetch.pc.toNat
    (m := s.readyToFetch.mem) hm (by omega)
  have h0 := hr 0 (by simp)
  have h1 := hr 1 (by simp)
  simp only [Nat.add_zero, List.getElem_cons_zero, List.getElem_cons_succ] at h0 h1
  have hp : (s.withFetchWord nbits w).pc = s.readyToFetch.pc := rfl
  have hmem : (s.withFetchWord nbits w).mem = Memory.writeRun s.font s.readyToFetch.mem
    s.readyToFetch.pc.toNat [(tableWord nbits w).extractLsb' 8 8, (tableWord nbits w).extractLsb' 0 8] := rfl
  have hfont : (s.withFetchWord nbits w).font = s.font := rfl
  rw [State.fetch_eq_some (by rw [hp]; exact hpc), hp, hmem, hfont, h0, h1, wordOfBytes_extract]

/-- A step from a state with a word placed runs exactly that word's instruction. -/
theorem step_withFetchWord (hm : Memory.wf s.font s.mem) (nbits w : Nat) :
    step (s.withFetchWord nbits w) = exec (decodeWord (tableWord nbits w)) (s.withFetchWord nbits w).advance := by
  have hf : (s.withFetchWord nbits w).faulted = false := State.readyToFetch_faulted s
  simp [step, hf, State.withFetchWord_fetch hm]

/-! ### The host's operations -/

@[simp] theorem tickDown_zero : tickDown 0 = 0 := rfl

/-- A tick subtracts one from a nonzero timer (60_exceptions.md R163). -/
theorem tickDown_toNat (b : Byte) : (tickDown b).toNat = b.toNat - 1 := by
  unfold tickDown
  split
  · rename_i h; simp [h]
  · rename_i h
    have h1 : b.toNat ≠ 0 := fun e => h (BitVec.eq_of_toNat_eq (by simpa using e))
    have h2 := b.isLt
    rw [BitVec.toNat_sub]; simp; omega

theorem State.tickTimers_of_faulted (h : s.faulted = true) : s.tickTimers = s := by simp [State.tickTimers, h]

theorem State.tickTimers_of_running (h : s.faulted = false) :
    s.tickTimers = { s with dt := tickDown s.dt, st := tickDown s.st } := by simp [State.tickTimers, h]

/-- A load that is too long changes nothing (70_reset_and_hazards.md R185). -/
theorem State.load_of_long {bytes : List Byte} (h : Config.romMax < bytes.length) :
    s.load bytes = (.loadError, s) := by simp [State.load, h]

theorem State.load_of_fits {bytes : List Byte} (h : bytes.length ≤ Config.romMax) :
    s.load bytes = (.ok, { s with mem := Memory.writeRun s.font s.mem Config.progBase bytes }) := by
  simp [State.load, Nat.not_lt.2 h]

/-- A load keeps memory canonical. -/
theorem State.wf_load (hm : Memory.wf s.font s.mem) (bytes : List Byte) : Memory.wf (s.load bytes).2.font (s.load bytes).2.mem := by
  by_cases h : bytes.length ≤ Config.romMax
  · rw [State.load_of_fits h]
    exact Memory.wf_writeRun bytes _ hm (by simp only [Config.progBase, Config.memSize, Config.romMax] at *; omega)
  · rw [State.load_of_long (by omega)]; exact hm

/-- A load changes memory only (R186). -/
theorem State.load_eq (bytes : List Byte) : (s.load bytes).2 = { s with mem := (s.load bytes).2.mem } := by
  unfold State.load
  split <;> rfl

@[simp] theorem State.hostReset_key (s : State) : s.hostReset.key = s.key := rfl
@[simp] theorem State.hostReset_randomDraws (s : State) : s.hostReset.randomDraws = s.randomDraws := rfl
@[simp] theorem State.hostReset_font (s : State) : s.hostReset.font = s.font := rfl
@[simp] theorem State.hostReset_mem (s : State) : s.hostReset.mem = [] := rfl
@[simp] theorem State.hostReset_pc (s : State) : s.hostReset.pc = 0x200 := rfl
@[simp] theorem State.hostReset_fault (s : State) : s.hostReset.fault = ⟨none, 0, 0⟩ := rfl

/-- The host's change of one key changes that key only (10_state.md R24). -/
theorem State.keyDown_setKey (s : State) (k j : Fin 16) (b : Bool) :
    (s.setKey k b).keyDown j = if j = k then b else s.keyDown j := by
  unfold State.keyDown State.setKey
  simp only [Vector.getElem_set]
  by_cases h : j = k
  · simp [h]
  · have : k.val ≠ j.val := fun e => h (Fin.ext e.symm)
    simp [h, this]

/-- One operation of a session, then the rest. -/
theorem runOps_cons (op : HostOp) (ops : List HostOp) (h : applyOp s op = .next t) :
    runOps s (op :: ops) = runOps t ops := by simp [runOps, h]

/-- An invariant of every operation holds at the end of every session. -/
theorem runOps_invariant {P : State → Prop} (hP : ∀ s op t, P s → applyOp s op = .next t → P t) :
    ∀ (ops : List HostOp) (s t : State), P s → runOps s ops = .next t → P t
  | [], s, t, hs, h => by
    have : s = t := by simpa [runOps] using h
    exact this ▸ hs
  | op :: ops, s, t, hs, h => by
    unfold runOps at h
    cases ha : applyOp s op with
    | next u => rw [ha] at h; exact runOps_invariant hP ops u t (hP s op u hs ha) h
    | fault f => rw [ha] at h; simp at h
    | refused r => rw [ha] at h; simp at h

end Sys2Proof.Machine
end

