-- ==== Sys2Proof/Tests/Slice0.lean ====
section
/-! SUPPORT. Tests. The expected results are the vectors of spec/95_test_vectors.md, whose ids the comments give (C, F, A,
M, D, K and so on), or are worked out by hand from the rule cited. The second half shows, for every statement that has
hypotheses, states and operands that meet them, at the boundary of each clause. -/

namespace Sys2Proof.Tests

open Machine

/-! ### Small states -/

/-- Registers V[k] set, the rest of the state as it was. -/
def vs (l : List (Reg × Byte)) (s : State) : State := l.foldl (fun s p => s.setV p.1 p.2) s

/-- Bytes stored from an address. -/
def bytesAt (a : Nat) (l : List Byte) (s : State) : State := { s with mem := Memory.writeRun s.font s.mem a l }

/-- One pixel lit. -/
def lit (r : Fin 32) (c : Fin 64) (s : State) : State := { s with disp := Display.setPixel s.disp r c true }

/-- The reset state with another I. -/
def at_i (i : Word) : State := { State.reset with i := i }

/-- The reset state with another PC. -/
def at_pc (pc : Word) : State := { State.reset with pc := pc }

/-- The state with another SP. -/
def at_sp (sp : Fin 17) (s : State) : State := { s with sp := sp }

/-- The state with one key down. -/
def down (k : Fin 16) (s : State) : State := s.setKey k true

/-- A faulted state. -/
def broken : State := { State.reset with pc := 0x0FFF, dt := 3, fault := ⟨some .fetchOutOfRange, 0x0FFF, 0⟩ }

/-- What holds of the state after the word at PC has run. -/
def after (s : State) (w : Nat) (p : State → Bool) : Bool :=
  match step (s.withFetchWord 16 w) with
  | .next t => p t
  | .fault _ => false
  | .refused _ => false

/-- What holds of the state after one step. -/
def cycled (s : State) (p : State → Bool) : Bool :=
  match step s with
  | .next t => p t
  | .fault _ => false
  | .refused _ => false

/-- PC, and some registers with their values. -/
def shows (pc : Word) (l : List (Reg × Byte)) (t : State) : Bool :=
  t.pc == pc && l.all (fun p => t.getV p.1 == p.2) && !t.faulted

/-- PC, I, and the bytes of memory from an address. -/
def holds (pc i : Word) (a : Nat) (l : List Byte) (t : State) : Bool :=
  t.pc == pc && t.i == i && Memory.readRun t.font t.mem a l.length == l && !t.faulted

/-- A fault record and PC. -/
def faultedAt (pc : Word) (f : Fault) (fpc fop : Word) (t : State) : Bool :=
  t.pc == pc && t.fault == ⟨some f, fpc, fop⟩

/-- The lit ones of some pixels of a row, and VF. -/
def row (r : Fin 32) (cs : List (Fin 64)) (vf : Byte) (t : State) : Bool :=
  (List.finRange 64).all (fun c => t.pixel r c == cs.contains c) && t.getV 0xF == vf && !t.faulted

/-! ### Well-formedness refuses ill-formed terms (R65, R66) -/

theorem test_wf_refuses_cls_as_unknown : (Instr.unknown 0x00E0).wf = false := by decide
theorem test_wf_refuses_ret_as_unknown : (Instr.unknown 0x00EE).wf = false := by decide
theorem test_wf_refuses_5xy0_as_unknown : (Instr.unknown 0x5AB0).wf = false := by decide
theorem test_wf_refuses_8xy4_as_unknown : (Instr.unknown 0x8124).wf = false := by decide
theorem test_wf_refuses_9xy0_as_unknown : (Instr.unknown 0x9120).wf = false := by decide
theorem test_wf_refuses_Ex9E_as_unknown : (Instr.unknown 0xE39E).wf = false := by decide
theorem test_wf_refuses_Fx07_as_unknown : (Instr.unknown 0xF007).wf = false := by decide
theorem test_wf_refuses_1nnn_as_unknown : (Instr.unknown 0x1ABC).wf = false := by decide

/-! ### Decoding: the words of R64, written out bit by bit -/

theorem test_decode_flow :
    decodeWord 0b0000_0000_1110_1110 = .ret ∧ decodeWord 0b0001_1010_1011_1100 = .jp 0xABC ∧
    decodeWord 0b0010_0011_0000_0000 = .call 0x300 ∧ decodeWord 0b0011_0001_0000_0101 = .seVxNn 1 0x05 ∧
    decodeWord 0b0100_0001_0000_0101 = .sneVxNn 1 0x05 ∧ decodeWord 0b0101_1010_1011_0000 = .seVxVy 0xA 0xB ∧
    decodeWord 0b1001_1010_1011_0000 = .sneVxVy 0xA 0xB ∧ decodeWord 0b1011_0011_0000_0100 = .jpV0 0x304 ∧
    decodeWord 0b0101_1010_1011_0001 = .unknown 0x5AB1 := by decide

theorem test_decode_alu :
    decodeWord 0b0110_1010_0000_0101 = .ldVxNn 0xA 0x05 ∧ decodeWord 0b0111_0001_1111_1111 = .addVxNn 1 0xFF ∧
    decodeWord 0b1000_0001_0010_0000 = .ldVxVy 1 2 ∧ decodeWord 0b1000_0001_0010_0001 = .orVxVy 1 2 ∧
    decodeWord 0b1000_0001_0010_0010 = .andVxVy 1 2 ∧ decodeWord 0b1000_0001_0010_0011 = .xorVxVy 1 2 ∧
    decodeWord 0b1000_0011_0100_0100 = .addVxVy 3 4 ∧ decodeWord 0b1000_0001_0010_0101 = .subVxVy 1 2 ∧
    decodeWord 0b1000_1010_1011_0110 = .shrVx 0xA 0xB ∧ decodeWord 0b1000_0001_0010_0111 = .subnVxVy 1 2 ∧
    decodeWord 0b1000_1010_1011_1110 = .shlVx 0xA 0xB ∧ decodeWord 0b1100_0001_0000_1111 = .rndVxNn 1 0x0F := by decide

theorem test_decode_index_and_memory :
    decodeWord 0b1010_0011_0000_0000 = .ldINnn 0x300 ∧ decodeWord 0b1111_0001_0001_1110 = .addIVx 1 ∧
    decodeWord 0b1111_0010_0010_1001 = .ldFVx 2 ∧ decodeWord 0b1111_0011_0011_0011 = .ldBVx 3 ∧
    decodeWord 0b1111_0100_0101_0101 = .ldMemVx 4 ∧ decodeWord 0b1111_1111_0110_0101 = .ldVxMem 0xF := by decide

theorem test_decode_display :
    decodeWord 0b0000_0000_1110_0000 = .cls ∧ decodeWord 0b1101_0001_0010_0101 = .drw 1 2 5 := by decide

theorem test_decode_keys_and_timers :
    decodeWord 0b1110_0011_1001_1110 = .skpVx 3 ∧ decodeWord 0b1110_0011_1010_0001 = .sknpVx 3 ∧
    decodeWord 0b1111_0010_0000_0111 = .ldVxDt 2 ∧ decodeWord 0b1111_0011_0000_1010 = .ldVxK 3 ∧
    decodeWord 0b1111_0100_0001_0101 = .ldDtVx 4 ∧ decodeWord 0b1111_0101_0001_1000 = .ldStVx 5 := by decide

/-- The unknown words among the spot checks of 95_test_vectors.md section 3. -/
theorem test_decode_unknown_spot_checks :
    ([0x00E1, 0x0000, 0x5AB1, 0x8AB8, 0xE09F, 0xF000, 0xF075, 0xF085, 0xF0FF, 0x01EE, 0x00F0] : List Word).all
      (fun op => decodeWord op == .unknown op) = true := by decide

/-- A list without a whole word is refused by name; what follows a word is given back. -/
theorem test_decode_bytes :
    decodeBytes [0x61, 0x05, 0xAA] = .ok (.ldVxNn 1 0x05, [0xAA]) ∧ decodeBytes [0x61] = .error .truncated ∧
    decodeBytes [] = .error .truncated := by decide

/-- The encoder, on words of 95_test_vectors.md. -/
theorem test_encode :
    encode (.addVxVy 3 4) = 0x8344 ∧ encode (.shrVx 1 2) = 0x8126 ∧ encode (.drw 1 2 5) = 0xD125 ∧
    encode (.ldVxMem 0xF) = 0xFF65 ∧ encode .ret = 0x00EE ∧ encodeBytes (.jp 0xABC) = [0x1A, 0xBC] := by decide

/-! ### One step of each instruction -/

-- C1, C14: an unknown word only advances PC.
theorem test_unknown_zero : after State.reset 0x0000 (fun t => t == (at_pc 0x0202)) = true := by decide
theorem test_unknown_reads_nothing :
    after (vs [(1, 0xFF)] (at_sp 16 (at_i 0xFFFF))) 0xF1FF (shows 0x0202 [(1, 0xFF)]) = true := by decide
-- F1, F2
theorem test_ret : after (at_sp 1 { at_pc 0x20C with stack := State.reset.stack.set 0 0x0206 }) 0x00EE
    (fun t => t.pc == 0x0206 && t.sp == 0 && t.stack[0] == 0x0206) = true := by decide
theorem test_ret_underflow :
    after (at_pc 0x20C) 0x00EE (faultedAt 0x020E .stackUnderflow 0x020C 0x00EE) = true := by decide
-- F4, F7
theorem test_jp : after State.reset 0x1ABC (shows 0x0ABC []) = true := by decide
-- F9, F10
theorem test_call_last_slot : after (at_sp 15 (at_pc 0x204)) 0x2300
    (fun t => t.pc == 0x0300 && t.sp == 16 && t.stack[15] == 0x0206) = true := by decide
theorem test_call_overflow : after (at_sp 16 { at_pc 0x204 with stack := State.reset.stack.set 15 0x1111 }) 0x2300
    (fun t => faultedAt 0x0206 .stackOverflow 0x0204 0x2300 t && t.sp == 16 && t.stack[15] == 0x1111) = true := by decide
-- F12, F13
theorem test_jpV0_is_not_masked : after (vs [(0, 0xFF)] State.reset) 0xBFFF (shows 0x10FE []) = true := by decide
theorem test_jpV0_reads_v0 : after (vs [(3, 0x55)] State.reset) 0xB300 (shows 0x0300 []) = true := by decide
-- F14, F15
theorem test_seVxNn_skips : after (vs [(1, 0x05)] (at_pc 0x208)) 0x3105 (shows 0x020C []) = true := by decide
theorem test_seVxNn_passes : after (vs [(1, 0x04)] (at_pc 0x208)) 0x3105 (shows 0x020A []) = true := by decide
-- F16, F17
theorem test_sneVxNn_passes : after (vs [(1, 0x05)] (at_pc 0x208)) 0x4105 (shows 0x020A []) = true := by decide
theorem test_sneVxNn_skips : after (vs [(1, 0x04)] (at_pc 0x208)) 0x4105 (shows 0x020C []) = true := by decide
-- F18, F19
theorem test_seVxVy_skips : after (vs [(1, 0x7F), (2, 0x7F)] (at_pc 0x300)) 0x5120 (shows 0x0304 []) = true := by decide
theorem test_seVxVy_passes : after (vs [(1, 0x7F), (2, 0x80)] (at_pc 0x300)) 0x5120 (shows 0x0302 []) = true := by decide
-- F21, F22
theorem test_sneVxVy_skips : after (vs [(1, 0x01), (2, 0x02)] (at_pc 0x300)) 0x9120 (shows 0x0304 []) = true := by decide
theorem test_sneVxVy_passes : after (vs [(1, 0x02), (2, 0x02)] (at_pc 0x300)) 0x9120 (shows 0x0302 []) = true := by decide
-- A2
theorem test_ldVxNn : after State.reset 0x6FAB (shows 0x0202 [(0xF, 0xAB)]) = true := by decide
-- A4, A5
theorem test_addVxNn_writes_no_flag :
    after (vs [(0, 0xFF), (0xF, 0x07)] State.reset) 0x7001 (shows 0x0202 [(0, 0x00), (0xF, 0x07)]) = true := by decide
theorem test_addVxNn_into_vf : after (vs [(0xF, 0xFF)] State.reset) 0x7F02 (shows 0x0202 [(0xF, 0x01)]) = true := by decide
-- A6
theorem test_ldVxVy : after (vs [(2, 0x3C)] State.reset) 0x8120 (shows 0x0202 [(1, 0x3C), (2, 0x3C)]) = true := by decide
-- A7, A8, A9
theorem test_orVxVy : after (vs [(1, 0xF0), (2, 0x0F), (0xF, 0x05)] State.reset) 0x8121
    (shows 0x0202 [(1, 0xFF), (0xF, 0x05)]) = true := by decide
theorem test_andVxVy : after (vs [(1, 0xF3), (2, 0x3F), (0xF, 0x05)] State.reset) 0x8122
    (shows 0x0202 [(1, 0x33), (0xF, 0x05)]) = true := by decide
theorem test_xorVxVy : after (vs [(1, 0xFF), (2, 0x0F), (0xF, 0x05)] State.reset) 0x8123
    (shows 0x0202 [(1, 0xF0), (0xF, 0x05)]) = true := by decide
-- A16, A17
theorem test_addVxVy_flag_wins : after (vs [(0xF, 0x10), (1, 0x02)] State.reset) 0x8F14
    (shows 0x0202 [(0xF, 0x00), (1, 0x02)]) = true := by decide
theorem test_addVxVy_reads_old_vf : after (vs [(1, 0xFE), (0xF, 0x03)] State.reset) 0x81F4
    (shows 0x0202 [(1, 0x01), (0xF, 0x01)]) = true := by decide
-- A19, A21
theorem test_subVxVy_borrow : after (vs [(1, 0x05), (2, 0x07)] State.reset) 0x8125
    (shows 0x0202 [(1, 0xFE), (0xF, 0x00)]) = true := by decide
theorem test_subVxVy_equal : after (vs [(1, 0x07), (2, 0x07)] State.reset) 0x8125
    (shows 0x0202 [(1, 0x00), (0xF, 0x01)]) = true := by decide
-- A27, A29
theorem test_shrVx_ignores_y : after (vs [(1, 0x05), (2, 0xFF)] State.reset) 0x8126
    (shows 0x0202 [(1, 0x02), (2, 0xFF), (0xF, 0x01)]) = true := by decide
theorem test_shrVx_flag_wins : after (vs [(0xF, 0x02)] State.reset) 0x8F06 (shows 0x0202 [(0xF, 0x00)]) = true := by decide
-- A31, A34
theorem test_subnVxVy_borrow : after (vs [(1, 0x07), (2, 0x05)] State.reset) 0x8127
    (shows 0x0202 [(1, 0xFE), (0xF, 0x00)]) = true := by decide
theorem test_subnVxVy_flag_wins : after (vs [(0xF, 0x03), (1, 0x05)] State.reset) 0x8F17
    (shows 0x0202 [(0xF, 0x01)]) = true := by decide
-- A35, A38
theorem test_shlVx : after (vs [(1, 0x81)] State.reset) 0x810E (shows 0x0202 [(1, 0x02), (0xF, 0x01)]) = true := by decide
theorem test_shlVx_flag_wins : after (vs [(0xF, 0x41)] State.reset) 0x8F0E (shows 0x0202 [(0xF, 0x00)]) = true := by decide
-- A41, whatever the random byte is: V1 is it.
theorem test_rndVxNn (t : State) (h : exec (.rndVxNn 1 0xFF) (at_pc 0x202) = .next t) :
    t.getV 1 = Config.randomByte 0 ∧ t.randomDraws = 1 := by
  cases h
  exact ⟨BitVec.allOnes_and, rfl⟩
-- M2
theorem test_ldINnn : after State.reset 0xAFFF (fun t => t.i == 0x0FFF && t.pc == 0x0202) = true := by decide
-- M4, M5
theorem test_addIVx_past_memory : after (vs [(1, 0x01), (0xF, 0x09)] (at_i 0x0FFF)) 0xF11E
    (fun t => t.i == 0x1000 && shows 0x0202 [(0xF, 0x09)] t) = true := by decide
theorem test_addIVx_wraps : after (vs [(1, 0x02)] (at_i 0xFFFF)) 0xF11E (fun t => t.i == 0x0001 && !t.faulted) = true := by
  decide
-- M7, M9
theorem test_ldFVx : after (vs [(0, 0x0A)] State.reset) 0xF029 (fun t => t.i == 0x0082) = true := by decide
theorem test_ldFVx_uses_all_bits : after (vs [(0, 0xFF)] State.reset) 0xF029 (fun t => t.i == 0x054B) = true := by decide
-- M13, M14
theorem test_ldBVx_last_address :
    after (vs [(0, 0x64)] (at_i 0x0FFD)) 0xF033 (holds 0x0202 0x0FFD 0xFFD [1, 0, 0]) = true := by decide
theorem test_ldBVx_beyond_memory : after (bytesAt 0xFFE [0xAA, 0xAA] (vs [(0, 0x64)] (at_i 0x0FFE))) 0xF033
    (fun t => faultedAt 0x0202 .dataOutOfRange 0x0200 0xF033 t &&
      Memory.readRun t.font t.mem 0xFFE 2 == [0xAA, 0xAA]) = true := by decide
-- M15, M17
theorem test_ldMemVx : after (bytesAt 0x400 [0xEE, 0xEE, 0xEE, 0xEE] (vs [(0, 1), (1, 2), (2, 3), (3, 9)] (at_i 0x0400)))
    0xF255 (holds 0x0202 0x0400 0x400 [1, 2, 3, 0xEE]) = true := by decide
theorem test_ldMemVx_beyond_memory : after (bytesAt 0xFFF [0xAA] (vs [(0, 0x77), (1, 0x88)] (at_i 0x0FFF))) 0xF155
    (fun t => faultedAt 0x0202 .dataOutOfRange 0x0200 0xF155 t && Memory.read t.font t.mem 0xFFF == 0xAA) = true := by decide
-- M20, M22
theorem test_ldVxMem : after (bytesAt 0x300 [2, 3, 4, 5] (vs [(3, 0x55)] (at_i 0x0300))) 0xF265
    (fun t => shows 0x0202 [(0, 2), (1, 3), (2, 4), (3, 0x55)] t && t.i == 0x0300) = true := by decide
theorem test_ldVxMem_beyond_memory : after (bytesAt 0xFFF [0x99] (vs [(0, 0x11), (1, 0x22)] (at_i 0x0FFF))) 0xF165
    (fun t => faultedAt 0x0202 .dataOutOfRange 0x0200 0xF165 t && t.getV 0 == 0x11 && t.getV 1 == 0x22) = true := by decide
-- D17
theorem test_cls : after (lit 31 63 (lit 0 0 (vs [(0xF, 0x01)] State.reset))) 0x00E0
    (fun t => row 0 [] 1 t && row 31 [] 1 t) = true := by decide
-- D14, D10
theorem test_drw_clips_and_collides : after (lit 5 63 (bytesAt 0x300 [0xFF] (vs [(1, 0x3C), (2, 0x05)] (at_i 0x0300))))
    0xD121 (fun t => row 5 [60, 61, 62] 1 t && row 6 [] 1 t) = true := by decide
theorem test_drw_reads_no_clipped_row : after (bytesAt 0xFFF [0x81] (vs [(2, 0x1F)] (at_i 0x0FFF))) 0xD122
    (fun t => row 31 [0, 7] 0 t && t.pc == 0x0202) = true := by decide
-- K1, K6
theorem test_skpVx : after (down 7 (vs [(1, 0x07)] (at_pc 0x210))) 0xE19E (shows 0x0214 []) = true := by decide
theorem test_skpVx_beyond_keys : after (down 0 (vs [(1, 0x10)] (at_pc 0x210))) 0xE19E
    (faultedAt 0x0212 .keyIndexOutOfRange 0x0210 0xE19E) = true := by decide
-- K3, K5
theorem test_sknpVx : after (vs [(1, 0x07)] (at_pc 0x210)) 0xE1A1 (shows 0x0214 []) = true := by decide
theorem test_sknpVx_key_15 : after (down 15 (vs [(1, 0x0F)] (at_pc 0x210))) 0xE1A1 (shows 0x0212 []) = true := by decide
-- K9, K10
theorem test_ldVxK_waits : after (vs [(1, 0x55)] State.reset) 0xF10A (shows 0x0200 [(1, 0x55)]) = true := by decide
theorem test_ldVxK_takes_lowest : after (down 7 (down 3 (vs [(1, 0x55)] State.reset))) 0xF10A
    (shows 0x0202 [(1, 0x03)]) = true := by decide
-- R143, R144, R145
theorem test_ldVxDt : after { State.reset with dt := 0x2A } 0xF207 (shows 0x0202 [(2, 0x2A)]) = true := by decide
theorem test_ldDtVx : after (vs [(2, 0x2A)] State.reset) 0xF215 (fun t => t.dt == 0x2A && t.st == 0) = true := by decide
theorem test_ldStVx : after (vs [(2, 0x2A)] State.reset) 0xF218 (fun t => t.st == 0x2A && t.dt == 0) = true := by decide

/-! ### The cycle and the host's operations -/

-- C9: an odd PC. C10, C11: the last fetch, and the one beyond.
theorem test_odd_pc : after (at_pc 0x201) 0x6107 (shows 0x0203 [(1, 0x07)]) = true := by decide
theorem test_last_fetch : after (at_pc 0xFFE) 0x0000 (shows 0x1000 []) = true := by decide
theorem test_fetch_beyond_memory :
    cycled (at_pc 0x0FFF) (faultedAt 0x0FFF .fetchOutOfRange 0x0FFF 0) = true := by decide
-- C13
theorem test_frozen : cycled broken (fun t => t == broken) = true := by decide
-- R163: each timer on its own, floor at zero.
theorem test_tick : { State.reset with dt := 2, st := 0 }.tickTimers = { State.reset with dt := 1, st := 0 } := by decide
-- R184: bytes verbatim from 0x200. R182: reset leaves the keys.
theorem test_load : (State.reset.load [0x12, 0x34]).2 = bytesAt 0x200 [0x12, 0x34] State.reset := by decide
theorem test_reset_keeps_keys : (down 3 (vs [(1, 9)] broken)).hostReset = down 3 State.reset := by decide
-- R167
theorem test_sound : { State.reset with st := 1 }.soundOn = true ∧ State.reset.soundOn = false := by decide
-- Log entry 9: storing what reset left there leaves no entry.
theorem test_canonical_memory :
    let write := Memory.write defaultFont
    write (write [] 0x300 7) 0x300 0 = [] ∧ write [] 0x50 0xF0 = [] ∧
    write (write [] 0x301 8) 0x300 7 = [(0x300, 7), (0x301, 8)] := by decide
-- M24, with the default font; and R31: with another FONT the program reads that one, after the host's reset too.
theorem test_default_font : after (at_i 0x50) 0xF465
    (shows 0x0202 [(0, 0xF0), (1, 0x90), (2, 0x90), (3, 0x90), (4, 0xF0)]) = true := by decide
theorem test_given_font : after { (State.resetWith (Vector.replicate 80 0xA5)).hostReset with i := 0x9F } 0xF165
    (shows 0x0202 [(0, 0xA5), (1, 0x00)]) = true := by decide
/-- What the host asks of `decodeTableWord`: the answer is a word's instruction. -/
theorem test_decodeTableWord :
    decodeTableWord 16 0x8344 = some (.addVxVy 3 4) ∧ decodeTableWord 16 0xF1FF = some (.unknown 0xF1FF) := by decide

/-! ### Witnesses: states and operands that meet the hypotheses of the statements, at the boundaries of their clauses

`Runs i s p` says that `exec` answers a next state of which `p` holds; `Steps s p` the same of `step`. -/

/-- `exec i s` answers a next state, and `p` holds of it. -/
def Runs (i : Instr) (s : State) (p : State → Prop) : Prop := ∃ t, exec i s = .next t ∧ p t

/-- `step s` answers a next state, and `p` holds of it. -/
def Steps (s : State) (p : State → Prop) : Prop := ∃ t, step s = .next t ∧ p t

/-- The reset state with a program loaded: its first word is the one given. -/
def loaded (hi lo : Byte) (s : State) : State := bytesAt 0x200 [hi, lo] s

-- Encoding
theorem wit_DecodeOfEncodeIsTheInstruction : (Instr.unknown 0x0000).wf = true ∧ (Instr.drw 0xF 0xF 0xF).wf = true := by decide
theorem wit_DecoderFollowsMaskAndMatch :
    (⟨.p8xyE, 0xF00F, 0x800E⟩ : OpcodeRow) ∈ opcodeRows ∧ (0x8ABE : Word) &&& 0xF00F = 0x800E := by decide
theorem wit_NoWordSelectsTwoRows :
    (⟨.pEx9E, 0xF0FF, 0xE09E⟩ : OpcodeRow) ∈ opcodeRows ∧ (0xE39E : Word) &&& 0xF0FF = 0xE09E := by decide
theorem wit_AmbiguousWordsDoNothing :
    ([0x5AB1, 0x9121, 0x01EE, 0x0000, 0xE3AE, 0xE3B1] : List Word).all ambiguousWord = true := by decide

-- The cycle
theorem wit_StepRunsTheDecodedInstruction_faulted : broken.fault.cause ≠ none := by decide
theorem wit_StepRunsTheDecodedInstruction_beyond :
    (at_pc 0x0FFF).fault.cause = none ∧ 0xFFF < (at_pc 0x0FFF).pc.toNat + 1 := by decide
theorem wit_StepRunsTheDecodedInstruction_last :
    (at_pc 0x0FFE).fault.cause = none ∧ (at_pc 0x0FFE).readByte (at_pc 0x0FFE).pc.toNat = some 0 ∧
    (at_pc 0x0FFE).readByte ((at_pc 0x0FFE).pc.toNat + 1) = some 0 := by decide
theorem wit_OnlyResetLeavesAFault :
    broken.fault.cause ≠ none ∧ Memory.wf broken.font broken.mem ∧
    (List.replicate 3584 (0xFF : Byte)).length ≤ 3584 ∧ 3583 < (List.replicate 3584 (0xFF : Byte)).length ∧
    (List.replicate 3585 (0xFF : Byte)).length > 3584 ∧ HostOp.cycle ≠ .reset ∧ applyOp broken .cycle = .next broken :=
  ⟨by decide, by decide, by rw [List.length_replicate], by rw [List.length_replicate]; decide,
    by rw [List.length_replicate]; decide, by decide, rfl⟩
theorem wit_CycleCompletesOrFaultsPrecisely : State.reset.fault.cause = none := by decide
theorem wit_ExecutionFaultsExactlyOnTheirConditions :
    (at_sp 16 State.reset).fault.cause = none ∧ faultCondition (.call 0x300) (at_sp 16 State.reset) .stackOverflow ∧
    faultCondition .ret State.reset .stackUnderflow ∧
    faultCondition (.skpVx 1) (vs [(1, 0x10)] State.reset) .keyIndexOutOfRange ∧
    faultCondition (.ldBVx 0) (at_i 0xFFE) .dataOutOfRange ∧ ¬ faultCondition (.ldBVx 0) (at_i 0xFFD) .dataOutOfRange ∧
    faultCondition (.drw 1 2 2) (at_i 0xFFF) .dataOutOfRange :=
  ⟨by decide, ⟨rfl, by decide⟩, ⟨rfl, by decide⟩, ⟨rfl, by decide⟩, ⟨rfl, 3, rfl, by decide, by decide⟩,
    fun ⟨_, _, h, _, h'⟩ => by cases h; exact absurd h' (by decide), ⟨rfl, 2, rfl, by decide, by decide⟩⟩
theorem wit_CycleNeitherTicksNorChangesKeys :
    Steps (loaded 0xF2 0x15 (vs [(2, 9)] State.reset)) (fun t => t.dt ≠ 0) ∧
    Steps (loaded 0xF2 0x18 (vs [(2, 9)] State.reset)) (fun t => t.st ≠ 0) :=
  ⟨⟨_, rfl, by decide⟩, ⟨_, rfl, by decide⟩⟩
theorem wit_StackMovesOnlyByCallAndReturn :
    Steps (loaded 0x23 0x00 (at_sp 15 State.reset)) (fun t => t.sp ≠ 15) ∧
    Steps (loaded 0x00 0xEE (at_sp 16 State.reset)) (fun t => t.sp ≠ 16) :=
  ⟨⟨_, rfl, by decide⟩, ⟨_, rfl, by decide⟩⟩
theorem wit_MemoryChangesOnlyByBcdAndStore :
    Steps (loaded 0xF0 0x33 (vs [(0, 1)] (at_i 0xFFD)))
      (fun t => t.readByte 0xFFF ≠ (loaded 0xF0 0x33 (vs [(0, 1)] (at_i 0xFFD))).readByte 0xFFF) ∧
    Steps (loaded 0xF0 0x55 (vs [(0, 1)] (at_i 0xFFF)))
      (fun t => t.readByte 0xFFF ≠ (loaded 0xF0 0x55 (vs [(0, 1)] (at_i 0xFFF))).readByte 0xFFF) :=
  ⟨⟨_, rfl, by decide⟩, ⟨_, rfl, by decide⟩⟩
theorem wit_PixelsChangeOnlyByClearAndDraw :
    Steps (loaded 0x00 0xE0 (lit 31 63 State.reset)) (fun t => t.pixel 31 63 ≠ (lit 31 63 State.reset).pixel 31 63) ∧
    Steps (loaded 0xD0 0x01 (at_i 0x50)) (fun t => t.pixel 0 0 ≠ (at_i 0x50).pixel 0 0) :=
  ⟨⟨_, rfl, by decide⟩, ⟨_, rfl, by decide⟩⟩
theorem wit_IndexChangesOnlyByItsThreeWriters : Steps (loaded 0xA3 0x00 State.reset) (fun t => t.i ≠ 0) :=
  ⟨_, rfl, by decide⟩
theorem wit_PcAfterEveryCycle_fetch :
    (at_pc 0x0FFF).fault.cause = none ∧ (at_pc 0x0FFF).fetch = none ∧ Steps (at_pc 0x0FFF) (fun _ => True) :=
  ⟨by decide, by decide, _, rfl, trivial⟩
theorem wit_PcAfterEveryCycle_fault :
    (loaded 0x00 0xEE State.reset).fetch = some 0x00EE ∧
    Steps (loaded 0x00 0xEE State.reset) (fun t => t.fault.cause ≠ none) := ⟨by decide, _, rfl, by decide⟩
theorem wit_PcAfterEveryCycle_next :
    (loaded 0xBF 0xFF State.reset).fetch = some 0xBFFF ∧
    Steps (loaded 0xBF 0xFF State.reset) (fun t => t.fault.cause = none) := ⟨by decide, _, rfl, by decide⟩

-- The invariant: a state other than reset, with PC at its greatest value; the step from it raises a fault.
theorem wit_StepKeepsTheInvariant : Inv (at_pc 0x10FE) ∧ Steps (at_pc 0x10FE) (fun _ => True) :=
  ⟨⟨by decide, by decide, by decide, ⟨rfl, rfl⟩⟩, _, rfl, trivial⟩
theorem wit_SessionsCompleteAndKeepTheInvariant : Inv broken := ⟨by decide, by decide, by decide, ⟨rfl, rfl, by decide⟩⟩

-- ALU
theorem wit_FlagWritersLeaveZeroOrOne :
    Runs (.addVxVy 0xF 1) State.reset (fun t => t.fault.cause = none) ∧
    Runs (.drw 0xF 1 5) (at_i 0x50) (fun t => t.fault.cause = none) := ⟨⟨_, rfl, by decide⟩, ⟨_, rfl, by decide⟩⟩

-- Frames
theorem wit_AluFrame : (Instr.addVxVy 1 2).family = .alu ∧ Runs (.addVxVy 1 2) State.reset (fun _ => True) ∧
    mayWrite (.addVxVy 1 2) State.reset (.v 2) = false := ⟨by decide, ⟨_, rfl, trivial⟩, by decide⟩
theorem wit_FlowFrame : (Instr.call 0x300).family = .flow ∧ Runs (.call 0x300) (at_sp 15 State.reset) (fun _ => True) ∧
    mayWrite (.call 0x300) (at_sp 15 State.reset) (.slot 14) = false := ⟨by decide, ⟨_, rfl, trivial⟩, by decide⟩
theorem wit_IndexMemoryFrame : (Instr.ldBVx 0).family = .indexMemory ∧ Runs (.ldBVx 0) (at_i 0xFFD) (fun _ => True) ∧
    mayWrite (.ldBVx 0) (at_i 0xFFD) (.mem 0xFFC) = false := ⟨by decide, ⟨_, rfl, trivial⟩, by decide⟩
theorem wit_DisplayFrame : (Instr.drw 1 2 5).family = .display ∧ Runs (.drw 1 2 5) (at_i 0x50) (fun _ => True) ∧
    mayWrite (.drw 1 2 5) (at_i 0x50) (.v 0xE) = false := ⟨by decide, ⟨_, rfl, trivial⟩, by decide⟩
theorem wit_KeysTimersFrame : (Instr.ldVxK 1).family = .keysTimers ∧ Runs (.ldVxK 1) State.reset (fun _ => True) ∧
    mayWrite (.ldVxK 1) State.reset (.key 0) = false := ⟨by decide, ⟨_, rfl, trivial⟩, by decide⟩

-- Control transfer
theorem wit_CallPushesOrOverflows : (at_sp 15 State.reset).sp.val < 16 ∧ (at_sp 16 State.reset).sp.val = 16 := by decide
theorem wit_ReturnPopsOrUnderflows :
    0 < (at_sp 1 State.reset).sp.val ∧ 0 < (at_sp 16 State.reset).sp.val ∧ State.reset.sp.val = 0 := by decide
theorem wit_ExactlyOneOfOppositeSkipsSkips :
    Runs (.seVxNn 1 5) State.reset (fun _ => True) ∧ Runs (.sneVxNn 1 5) State.reset (fun _ => True) ∧
    Runs (.seVxVy 1 2) State.reset (fun _ => True) ∧ Runs (.sneVxVy 1 2) State.reset (fun _ => True) ∧
    ((vs [(1, 0x0F)] State.reset).getV 1).toNat ≤ 15 ∧ Runs (.skpVx 1) (vs [(1, 0x0F)] State.reset) (fun _ => True) ∧
    Runs (.sknpVx 1) (vs [(1, 0x0F)] State.reset) (fun _ => True) :=
  ⟨⟨_, rfl, trivial⟩, ⟨_, rfl, trivial⟩, ⟨_, rfl, trivial⟩, ⟨_, rfl, trivial⟩, by decide, ⟨_, rfl, trivial⟩,
    ⟨_, rfl, trivial⟩⟩
theorem wit_ReturnUndoesCall : (at_sp 15 State.reset).sp.val < 16 := by decide
theorem wit_SelfJumpLeavesTheStateUnchanged :
    (loaded 0x12 0x00 State.reset).fault.cause = none ∧
    (loaded 0x12 0x00 State.reset).fetch = some (0x1#4 ++ 0x200#12) ∧
    (loaded 0x12 0x00 State.reset).pc.toNat = (0x200#12).toNat := by decide

-- Index register and memory
theorem wit_BcdStoresThreeDigits : Memory.wf (at_i 0xFFD).font (at_i 0xFFD).mem ∧ (at_i 0xFFD).i.toNat + 2 ≤ 0xFFF ∧
    (at_i 0xFFE).i.toNat + 2 > 0xFFF := by decide
theorem wit_StoreWritesRegistersToMemory : Memory.wf (at_i 0xFF0).font (at_i 0xFF0).mem ∧ (at_i 0xFF0).i.toNat + (15#4).toNat ≤ 0xFFF ∧
    (at_i 0xFF1).i.toNat + (15#4).toNat > 0xFFF := by decide
theorem wit_LoadReadsRegistersFromMemory : (at_i 0xFF0).i.toNat + (15#4).toNat ≤ 0xFFF ∧ (14#4).toNat < (15#4).toNat ∧
    (at_i 0x1000).i.toNat + (0#4).toNat > 0xFFF := by decide
theorem wit_LoadAfterStoreRestoresRegisters :
    Memory.wf (at_i 0xFF0).font (at_i 0xFF0).mem ∧ (at_i 0xFF0).i.toNat + (15#4).toNat ≤ 0xFFF ∧
    Runs (.ldMemVx 15) (at_i 0xFF0) (fun t =>
      let u : State := { at_i 0xFF0 with mem := t.mem }
      u.font = t.font ∧ u.i = (at_i 0xFF0).i) :=
  ⟨by decide, by decide, _, rfl, rfl, rfl⟩
theorem wit_MemoryReadsBackTheLastWrite : Memory.wf defaultFont [(0xFFF, 1)] ∧ 0xFFF < 0x1000 := by decide
theorem wit_CanonicalMemoriesThatReadAlikeAreEqual :
    Memory.wf defaultFont [(0x300, 1)] ∧ ∀ a, Memory.read defaultFont [(0x300, 1)] a = Memory.read defaultFont [(0x300, 1)] a := ⟨by decide, fun _ => rfl⟩
theorem wit_StoredCodeIsFetchedAtOnce :
    Memory.wf (at_i 0xFF0).font (at_i 0xFF0).mem ∧ (at_i 0xFF0).i.toNat + (15#4).toNat ≤ 0xFFF ∧ 14 + 1 ≤ (15#4).toNat ∧
    (at_pc 0xFFE).pc.toNat = (at_i 0xFF0).i.toNat + 14 := by decide

-- Display
theorem wit_ClearDarkensEveryPixel : Item.isPixel (.v 0xF) = false := by decide
theorem wit_DrawTogglesTheSpritesPixels :
    (∀ i : Nat, i < (1#4).toNat → ((at_i 0xFFF).getV 2).toNat + i < 32 → (at_i 0xFFF).i.toNat + i ≤ 0xFFF) ∧
    (∀ i : Nat, i < (2#4).toNat → ((vs [(2, 0x1F)] (at_i 0xFFF)).getV 2).toNat + i < 32 →
      (vs [(2, 0x1F)] (at_i 0xFFF)).i.toNat + i ≤ 0xFFF) ∧
    1 < (2#4).toNat ∧ ((at_i 0xFFF).getV 2).toNat + 1 < 32 ∧ (at_i 0xFFF).i.toNat + 1 > 0xFFF := by decide
theorem wit_DrawingTwiceRestoresTheDisplay :
    Runs (.drw 1 2 5) (at_i 0x50) (fun t => t.fault.cause = none ∧ t.getV 0xF = 0) ∧
    Runs (.drw 1 2 5) (lit 0 0 (at_i 0x50)) (fun t => t.fault.cause = none ∧ t.getV 0xF = 1) :=
  ⟨⟨_, rfl, by decide⟩, ⟨_, rfl, by decide⟩⟩

/-- R132 item 5 is not what R131 gives when the sprite lands on lit pixels only: the sprite has an on-screen 1 bit, the
second draw restores the pixel, and VF is 0 (log entry 14). -/
theorem test_second_draw_over_lit_pixel : after (lit 0 0 (bytesAt 0x300 [0x80] (at_i 0x0300))) 0xD011
    (fun t => row 0 [] 1 t && after { t with v := State.reset.v } 0xD011 (row 0 [0] 0)) = true := by decide

-- Keys and timers
theorem wit_KeySkipsTestTheLevel :
    ((vs [(1, 0x0F)] State.reset).getV 1).toNat = (15 : Fin 16).val ∧ (State.reset.getV 1).toNat = (0 : Fin 16).val ∧
    15 < ((vs [(1, 0x10)] State.reset).getV 1).toNat := by decide
theorem wit_KeyWaitTakesTheLeastKey :
    ((down 15 State.reset).keyDown 15 = true ∧ ∀ j < (15 : Fin 16), (down 15 State.reset).keyDown j = false) ∧
    ((down 0 State.reset).keyDown 0 = true ∧ ∀ j < (0 : Fin 16), (down 0 State.reset).keyDown j = false) ∧
    (∀ k, State.reset.keyDown k = false) := by decide

-- The host's operations
theorem wit_TickDecrementsNonzeroTimers : State.reset.fault.cause = none ∧ broken.fault.cause ≠ none := by decide
theorem wit_EnoughTicksDrainBothTimers : State.reset.fault.cause = none ∧ 255 ≤ 255 := by decide
theorem wit_ResetGivesTheStatedState : 0x0A0 ≤ 0xFFF ∧ 0xFFF < 0x1000 ∧ 0x04F < 0x050 := by decide
theorem wit_LoadCopiesVerbatimOrRefuses :
    Memory.wf State.reset.font State.reset.mem ∧ (List.replicate 3584 (0xFF : Byte)).length ≤ 3584 ∧
    3583 < (List.replicate 3584 (0xFF : Byte)).length ∧ (List.replicate 3585 (0xFF : Byte)).length > 3584 :=
  ⟨by decide, by rw [List.length_replicate], by rw [List.length_replicate]; decide,
    by rw [List.length_replicate]; decide⟩

end Sys2Proof.Tests
end

section
/-! PROOFS. The family 00_scope.md: `reset` gives the stated state (O59), and every session of host operations completes,
keeps the invariant and leaves FONT (O20). -/

open Sys2Proof Sys2Proof.Machine

namespace Sys2Proof.Scope

/-! ### The state after `reset` (10_state.md R30, R180 to R182) -/

/-- What a byte of memory reads as after `reset`. -/
theorem hostReset_readByte (s : State) {a : Nat} (ha : a < 0x1000) :
    s.hostReset.readByte a = some (Memory.resetByte s.font a) :=
  State.readByte_of_lt _ ha

theorem hostReset_readByte_below_font (s : State) {a : Nat} (ha : a < 0x050) : s.hostReset.readByte a = some 0 := by
  rw [hostReset_readByte s (by omega), Memory.resetByte_of_lt ha]

theorem hostReset_readByte_font (s : State) (k : Fin 80) : s.hostReset.readByte (0x050 + k.val) = some s.font[k.val] := by
  rw [hostReset_readByte s (by omega)]
  exact congrArg some (Memory.resetByte_font k.val k.isLt)

theorem hostReset_readByte_above_font (s : State) {a : Nat} (hlo : 0x0A0 ≤ a) (hhi : a < 0x1000) :
    s.hostReset.readByte a = some 0 := by
  rw [hostReset_readByte s hhi, Memory.resetByte_of_ge hlo]

@[simp] theorem hostReset_getV (s : State) (x : Reg) : s.hostReset.getV x = 0 := by
  simp [State.hostReset, State.resetWith, State.getV]

@[simp] theorem hostReset_slot (s : State) (k : Fin 16) : s.hostReset.stack[k.val] = 0 := by
  simp [State.hostReset, State.resetWith]

@[simp] theorem resetWith_keyDown (font : Font) (k : Fin 16) : (State.resetWith font).keyDown k = false := by
  simp [State.resetWith, State.keyDown]

/-! ### Decoding the word of an instruction that has a row of R64 -/

/-- The decoder undoes the encoder on every instruction of the opcode map. -/
theorem decodeWord_encode_of_pattern {i : Instr} {p : Pattern} (h : i.pattern = some p) : decodeWord (encode i) = i := by
  cases i with
  | unknown => simp [Instr.pattern] at h
  | cls | ret => decide
  | jp | call | ldINnn | jpV0 | seVxNn | sneVxNn | ldVxNn | addVxNn | rndVxNn | seVxVy | sneVxVy | drw | skpVx | sknpVx =>
    simp [encode, decodeWord]
  | ldVxDt | ldVxK | ldDtVx | ldStVx | addIVx | ldFVx | ldBVx | ldMemVx | ldVxMem =>
    simp [encode, decodeWord, decodeTopF]
  | ldVxVy | orVxVy | andVxVy | xorVxVy | addVxVy | subVxVy | shrVx | subnVxVy | shlVx =>
    simp [encode, decodeWord, decodeTop8]

/-! ### The PC of a cycle (40_cycle.md R82) -/

/-- The advance from a fetched word, or the skip after it, does not wrap. -/
theorem toNat_add_two {pc : Word} (h : pc.toNat ≤ 0x1000) : (pc + 2).toNat = pc.toNat + 2 :=
  BitVec.toNat_add_of_lt (show pc.toNat + 2 < 2 ^ 16 by omega)

theorem toNat_sub_two {pc : Word} (h : 2 ≤ pc.toNat) : (pc - 2).toNat = pc.toNat - 2 :=
  BitVec.toNat_sub_of_le h

/-! ### Conditions of faults (60_exceptions.md R150) -/

/-- A fault condition rests on V, I and SP alone. -/
theorem faultCondition_congr {s t : State} (hv : t.v = s.v) (hi : t.i = s.i) (hsp : t.sp = s.sp) (i : Instr) (f : Fault) :
    faultCondition i t f ↔ faultCondition i s f := by
  cases s
  cases t
  cases hv
  cases hi
  cases hsp
  cases i <;> rfl

/-- The fetch fault is not one an execution can raise. -/
theorem ne_fetchOutOfRange_of_faultCondition {i : Instr} {s : State} {f : Fault} (h : faultCondition i s f) :
    f ≠ .fetchOutOfRange := by
  rintro rfl
  cases i <;> simp [faultCondition] at h

/-- An access of a run outside MEM is one beyond 0xFFF. -/
theorem accessesBeyondMemory_of_not_inMemory {i : Instr} {s : State} {len : Nat} (hlen : accessLen i s = some len)
    (h : inMemory (s.effAddr 0) len = false) : accessesBeyondMemory i s := by
  have hout : ¬(len = 0 ∨ s.i.toNat + len ≤ 0x1000) := fun hin =>
    Bool.false_ne_true (h.symm.trans (inMemory_iff.2 hin))
  exact ⟨len, hlen, by omega, by omega⟩

/-! ### What FAULT says (60_exceptions.md R155 to R157) -/

theorem faultDescribed_of_clear {s : State} (h : s.fault = ⟨none, 0, 0⟩) : FaultDescribed s := by
  simp [FaultDescribed, h]

/-- FAULT of a state that is not faulted is clear. -/
theorem fault_eq_clear {s : State} (h : FaultDescribed s) (hf : s.faulted = false) : s.fault = ⟨none, 0, 0⟩ := by
  have hc := State.faulted_eq_false.1 hf
  unfold FaultDescribed at h
  rw [hc] at h
  obtain ⟨hpc, hop⟩ := h
  calc s.fault = ⟨s.fault.cause, s.fault.pc, s.fault.opcode⟩ := rfl
    _ = ⟨none, 0, 0⟩ := by rw [hc, hpc, hop]

/-- The description of a fault rests on FAULT, PC, V, I and SP alone. -/
theorem faultDescribed_congr {s t : State} (hf : t.fault = s.fault) (hpc : t.pc = s.pc) (hv : t.v = s.v) (hi : t.i = s.i)
    (hsp : t.sp = s.sp) : FaultDescribed t ↔ FaultDescribed s := by
  unfold FaultDescribed
  simp only [hf, hpc, faultCondition_congr hv hi hsp]

/-- An execution fault raised on its condition is described by FAULT. -/
theorem faultDescribed_raiseIn {i : Instr} {p : Pattern} {s : State} {f : Fault} (hp : i.pattern = some p)
    (hc : faultCondition i s f) (hpc : (s.pc - 2).toNat < 0xFFF) : FaultDescribed (s.raiseIn f i) := by
  have hdesc : s.pc = s.pc - 2 + 2 ∧ (s.pc - 2).toNat < 0xFFF ∧
      faultCondition (decodeWord (encode i)) (s.raiseIn f i) f := by
    refine ⟨(BitVec.sub_add_cancel _ _).symm, hpc, ?_⟩
    rw [decodeWord_encode_of_pattern hp]
    exact (faultCondition_congr rfl rfl rfl i f).2 hc
  have hne := ne_fetchOutOfRange_of_faultCondition hc
  cases f with
  | fetchOutOfRange => exact absurd rfl hne
  | stackOverflow | stackUnderflow | dataOutOfRange | keyIndexOutOfRange => exact hdesc

/-! ### The invariant -/

/-- A state with canonical memory that has the PC, SP, STACK, V, I and FAULT of one that meets the invariant meets it. -/
theorem inv_of_same {s t : State} (hs : Inv s) (hm : Memory.wf t.font t.mem) (hpc : t.pc = s.pc) (hstack : t.stack = s.stack)
    (hf : t.fault = s.fault) (hv : t.v = s.v) (hi : t.i = s.i) (hsp : t.sp = s.sp) : Inv t where
  mem_wf := hm
  pc_le := hpc ▸ hs.pc_le
  slot_le := hstack ▸ hs.slot_le
  fault_described := (faultDescribed_congr hf hpc hv hi hsp).2 hs.fault_described

/-- What holds of the state an instruction executes in, when the cycle began in a state that meets the invariant: PC has
been advanced past a word that memory holds, and FAULT is clear. -/
structure Executing (s : State) : Prop where
  /-- Memory is canonical. -/
  mem_wf : Memory.wf s.font s.mem
  /-- PC has been advanced. -/
  pc_ge : 2 ≤ s.pc.toNat
  /-- The instruction was fetched from inside MEM. -/
  pc_le : s.pc.toNat ≤ 0x1000
  /-- A return address is an advanced PC. -/
  slot_le : ∀ k : Fin 16, (s.stack[k.val]).toNat ≤ 0x1000
  /-- The state is not faulted. -/
  fault_clear : s.fault = ⟨none, 0, 0⟩

/-- The answer is a next state that meets the invariant and has the FONT of the state `s`. -/
def Completes (s : State) (r : Result) : Prop := ∃ t, r = .next t ∧ Inv t ∧ t.font = s.font

/-- The advanced state of a cycle that fetched a word (40_cycle.md R82). -/
theorem executing_advance {s : State} (hs : Inv s) (hf : s.faulted = false) (hpc : s.pc.toNat + 1 < 0x1000) :
    Executing s.advance := by
  have hadv : s.advance.pc.toNat = s.pc.toNat + 2 := toNat_add_two (by omega)
  have hclear : s.fault = ⟨none, 0, 0⟩ := fault_eq_clear hs.fault_described hf
  exact ⟨hs.mem_wf, by omega, by omega, hs.slot_le, hclear⟩

namespace Executing

variable {s t : State}

/-- An execution that leaves memory, STACK, FAULT and FONT alone and takes PC no further than 0x10FE keeps the
invariant. -/
theorem inv (hs : Executing s) (hpc : t.pc.toNat ≤ 0x10FE) (hm : t.mem = s.mem) (hstack : t.stack = s.stack)
    (hf : t.fault = s.fault) (hfont : t.font = s.font) : Inv t where
  mem_wf := by rw [hm, hfont]; exact hs.mem_wf
  pc_le := hpc
  slot_le := hstack ▸ hs.slot_le
  fault_described := faultDescribed_of_clear (hf.trans hs.fault_clear)

theorem pc_le_max (hs : Executing s) : s.pc.toNat ≤ 0x10FE := hs.pc_le.trans (by decide)

/-- The same as a completion, for an execution that does not fault. -/
theorem completes (hs : Executing s) (hpc : t.pc.toNat ≤ 0x10FE) (hm : t.mem = s.mem) (hstack : t.stack = s.stack)
    (hf : t.fault = s.fault) (hfont : t.font = s.font) : Completes s (.next t) :=
  ⟨t, rfl, hs.inv hpc hm hstack hf hfont, hfont⟩

/-- A jump to an address of at most 0x10FE. -/
theorem completes_setPc (hs : Executing s) {w : Word} (hw : w.toNat ≤ 0x10FE) : Completes s (.next (s.setPc w)) :=
  hs.completes hw rfl rfl rfl rfl

/-- A skip ends at most 2 past the advanced PC (41_flow.md R94). -/
theorem inv_skipIf (hs : Executing s) (c : Bool) : Inv (s.skipIf c) ∧ (s.skipIf c).font = s.font := by
  have hle := hs.pc_le
  rw [State.skipIf_eq]
  refine ⟨hs.inv ?_ rfl rfl rfl rfl, rfl⟩
  cases c with
  | false => exact hs.pc_le_max
  | true =>
    rw [State.setPc_pc, if_pos rfl, toNat_add_two hle]
    omega

theorem completes_skipIf (hs : Executing s) (c : Bool) : Completes s (.next (s.skipIf c)) :=
  ⟨_, rfl, hs.inv_skipIf c⟩

/-- A fault raised on its condition keeps the invariant. -/
theorem inv_raiseIn (hs : Executing s) {i : Instr} {p : Pattern} {f : Fault} (hp : i.pattern = some p)
    (hc : faultCondition i s f) : Inv (s.raiseIn f i) where
  mem_wf := hs.mem_wf
  pc_le := hs.pc_le_max
  slot_le := hs.slot_le
  fault_described := by
    have hle := hs.pc_le
    refine faultDescribed_raiseIn hp hc ?_
    rw [toNat_sub_two hs.pc_ge]
    omega

/-- An operation that may fault: its state keeps the invariant when it gives one, and it gives none only on the fault's
condition. -/
theorem completes_orRaise (hs : Executing s) {i : Instr} {p : Pattern} {f : Fault} {r : Option State}
    (hp : i.pattern = some p) (hnone : r = none → faultCondition i s f)
    (hsome : ∀ t, r = some t → Inv t ∧ t.font = s.font) : Completes s (orRaise s f i r) := by
  cases r with
  | none => exact ⟨_, rfl, hs.inv_raiseIn hp (hnone rfl), rfl⟩
  | some t => exact ⟨t, rfl, hsome t rfl⟩

/-! ### The instructions that may fault -/

theorem completes_ret (hs : Executing s) : Completes s (execRet s) := by
  refine hs.completes_orRaise rfl (fun hn => ⟨rfl, State.pop_eq_none.1 (Option.map_eq_none_iff.1 hn)⟩) fun t ht => ?_
  obtain ⟨⟨w, u⟩, hpop, rfl⟩ := Option.map_eq_some_iff.1 ht
  obtain ⟨hsp, rfl, rfl⟩ := State.pop_eq_some hpop
  have hslot := hs.slot_le ⟨s.sp.val - 1, by omega⟩
  exact ⟨hs.inv (hslot.trans (by decide)) rfl rfl rfl rfl, rfl⟩

theorem completes_call (hs : Executing s) (nnn : Addr12) : Completes s (execCall nnn s) := by
  refine hs.completes_orRaise rfl (fun hn => ⟨rfl, State.push_eq_none.1 (Option.map_eq_none_iff.1 hn)⟩) fun t ht => ?_
  obtain ⟨u, hpush, rfl⟩ := Option.map_eq_some_iff.1 ht
  obtain ⟨hsp, rfl⟩ := State.push_eq_some hpush
  have hnnn := nnn.isLt
  refine ⟨⟨hs.mem_wf, ?_, fun k => ?_, faultDescribed_of_clear hs.fault_clear⟩, rfl⟩
  · rw [State.setPc_pc, zextAddr_toNat]
    omega
  · rw [State.setPc_stack, Vector.getElem_set]
    split
    · exact hs.pc_le
    · exact hs.slot_le k

/-- A skip on a key whose number V[x] holds. -/
theorem completes_keySkip (hs : Executing s) {i : Instr} {p : Pattern} (x : Reg) (c : Fin 16 → Bool)
    (hp : i.pattern = some p) (hcond : 15 < (s.getV x).toNat → faultCondition i s .keyIndexOutOfRange) :
    Completes s (orRaise s .keyIndexOutOfRange i ((keyIndex (s.getV x)).map fun k => s.skipIf (c k))) := by
  refine hs.completes_orRaise hp (fun hn => hcond (keyIndex_eq_none.1 (Option.map_eq_none_iff.1 hn))) fun t ht => ?_
  obtain ⟨k, -, rfl⟩ := Option.map_eq_some_iff.1 ht
  exact hs.inv_skipIf (c k)

/-- A store through I of as many bytes as the instruction accesses. -/
theorem completes_store (hs : Executing s) {i : Instr} {p : Pattern} {xs : List Byte} (hp : i.pattern = some p)
    (hlen : accessLen i s = some xs.length)
    (hcond : accessesBeyondMemory i s → faultCondition i s .dataOutOfRange) :
    Completes s (orRaise s .dataOutOfRange i (s.storeRun (s.effAddr 0) xs)) := by
  refine hs.completes_orRaise hp
    (fun hn => hcond (accessesBeyondMemory_of_not_inMemory hlen (State.storeRun_eq_none.1 hn))) fun t ht => ?_
  have hwf := State.wf_storeRun hs.mem_wf ht
  obtain ⟨-, rfl⟩ := State.storeRun_eq_some ht
  exact ⟨⟨hwf, hs.pc_le_max, hs.slot_le, faultDescribed_of_clear hs.fault_clear⟩, rfl⟩

/-- A use of the bytes from I, as many as the instruction accesses, that writes no more than V and DISP. -/
theorem completes_load (hs : Executing s) {i : Instr} {p : Pattern} {len : Nat} {g : List Byte → State}
    (hp : i.pattern = some p) (hlen : accessLen i s = some len)
    (hcond : accessesBeyondMemory i s → faultCondition i s .dataOutOfRange)
    (hg : ∀ bs, ∃ v disp, g bs = { s with v := v, disp := disp }) :
    Completes s (orRaise s .dataOutOfRange i ((s.loadRun (s.effAddr 0) len).map g)) := by
  refine hs.completes_orRaise hp (fun hn => hcond (accessesBeyondMemory_of_not_inMemory hlen
    (State.loadRun_eq_none.1 (Option.map_eq_none_iff.1 hn)))) fun t ht => ?_
  obtain ⟨bs, -, rfl⟩ := Option.map_eq_some_iff.1 ht
  obtain ⟨v, disp, hv⟩ := hg bs
  rw [hv]
  exact ⟨hs.inv hs.pc_le_max rfl rfl rfl rfl, rfl⟩

/-! ### Every instruction -/

/-- The wait for a key ends at the advanced PC, or back at the instruction (45_keys_timers.md R142). -/
theorem completes_ldVxK (hs : Executing s) (x : Reg) : Completes s (execLdVxK x s) := by
  unfold execLdVxK
  split
  · exact hs.completes hs.pc_le_max rfl rfl rfl rfl
  · have hle := hs.pc_le
    exact hs.completes_setPc (by rw [toNat_sub_two hs.pc_ge]; omega)

/-- Every instruction completes and keeps the invariant. -/
theorem completes_exec (hs : Executing s) (i : Instr) : Completes s (exec i s) := by
  cases i with
  | ldVxNn | addVxNn | ldVxVy | orVxVy | andVxVy | xorVxVy | addVxVy | subVxVy | shrVx | subnVxVy | shlVx | rndVxNn =>
    exact hs.completes hs.pc_le_max rfl rfl rfl rfl
  | ldINnn | addIVx | ldFVx | cls | ldVxDt | ldDtVx | ldStVx | unknown =>
    exact hs.completes hs.pc_le_max rfl rfl rfl rfl
  | seVxNn | sneVxNn | seVxVy | sneVxVy => exact hs.completes_skipIf _
  | jp nnn => exact hs.completes_setPc (by rw [zextAddr_toNat]; omega)
  | jpV0 nnn => exact hs.completes_setPc (by rw [zextAddr_add_zextByte_toNat]; omega)
  | ret => exact hs.completes_ret
  | call nnn => exact hs.completes_call nnn
  | skpVx x => exact hs.completes_keySkip x s.keyDown rfl fun h => ⟨rfl, h⟩
  | sknpVx x => exact hs.completes_keySkip x (fun k => !s.keyDown k) rfl fun h => ⟨rfl, h⟩
  | ldVxK x => exact hs.completes_ldVxK x
  | ldBVx x => exact hs.completes_store rfl rfl fun h => ⟨rfl, h⟩
  | ldMemVx x => exact hs.completes_store rfl (congrArg some (length_regsUpTo s x).symm) fun h => ⟨rfl, h⟩
  | ldVxMem x => exact hs.completes_load rfl rfl (fun h => ⟨rfl, h⟩) fun bs => ⟨_, _, State.loadRegs_eq s bs 0⟩
  | drw x y n => exact hs.completes_load rfl rfl (fun h => ⟨rfl, h⟩) fun _ => ⟨_, _, State.setDrawn_eq s _⟩

end Executing

/-! ### The host's operations -/

/-- A fetch fault keeps the invariant (60_exceptions.md R153). -/
theorem inv_raiseFetch {s : State} (hs : Inv s) (hpc : 0x1000 ≤ s.pc.toNat + 1) : Inv s.raiseFetch where
  mem_wf := hs.mem_wf
  pc_le := hs.pc_le
  slot_le := hs.slot_le
  fault_described := ⟨rfl, rfl, Nat.le_of_succ_le_succ hpc⟩

/-- Every cycle completes and keeps the invariant. -/
theorem completes_step {s : State} (hs : Inv s) : Completes s (step s) := by
  rcases step_cases s with ⟨-, h⟩ | ⟨-, hpc, h⟩ | ⟨op, hf, hpc, -, h⟩ <;> rw [h]
  · exact ⟨s, rfl, hs, rfl⟩
  · exact ⟨_, rfl, inv_raiseFetch hs hpc, rfl⟩
  · exact (executing_advance hs hf hpc).completes_exec (decodeWord op)

theorem inv_hostReset (s : State) : Inv s.hostReset where
  mem_wf := Memory.wf_nil
  pc_le := by rw [State.hostReset_pc]; decide
  slot_le k := by rw [hostReset_slot]; decide
  fault_described := faultDescribed_of_clear rfl

theorem inv_load {s : State} (hs : Inv s) (bytes : List Byte) : Inv (s.load bytes).2 := by
  have hwf := State.wf_load hs.mem_wf bytes
  rw [State.load_eq] at hwf ⊢
  exact inv_of_same hs hwf rfl rfl rfl rfl rfl rfl

theorem inv_tickTimers {s : State} (hs : Inv s) : Inv s.tickTimers := by
  cases hf : s.faulted with
  | true => rwa [State.tickTimers_of_faulted hf]
  | false =>
    rw [State.tickTimers_of_running hf]
    exact inv_of_same hs hs.mem_wf rfl rfl rfl rfl rfl rfl

theorem tickTimers_font (s : State) : s.tickTimers.font = s.font := by
  cases hf : s.faulted with
  | true => rw [State.tickTimers_of_faulted hf]
  | false => rw [State.tickTimers_of_running hf]

/-- Every operation of the host completes, keeps the invariant and leaves FONT. -/
theorem completes_applyOp {s : State} (hs : Inv s) (op : HostOp) : Completes s (applyOp s op) := by
  cases op with
  | reset => exact ⟨_, rfl, inv_hostReset s, rfl⟩
  | load bytes => exact ⟨_, rfl, inv_load hs bytes, by rw [State.load_eq]⟩
  | cycle => exact completes_step hs
  | tickTimers => exact ⟨_, rfl, inv_tickTimers hs, tickTimers_font s⟩
  | setKey k down => exact ⟨_, rfl, inv_of_same hs hs.mem_wf rfl rfl rfl rfl rfl rfl, rfl⟩

/-- Every session completes, keeps the invariant and leaves FONT. -/
theorem completes_runOps (ops : List HostOp) {s : State} (hs : Inv s) : Completes s (runOps s ops) := by
  induction ops generalizing s with
  | nil => exact ⟨s, rfl, hs, rfl⟩
  | cons op ops ih =>
    obtain ⟨t, hop, ht, htf⟩ := completes_applyOp hs op
    obtain ⟨u, hrun, hu, huf⟩ := ih ht
    exact ⟨u, (runOps_cons op ops hop).trans hrun, hu, huf.trans htf⟩

/-- Settles O20, by induction on the session: every operation completes and keeps the invariant. -/
theorem sessionsCompleteAndKeepTheInvariant : Obligations.SessionsCompleteAndKeepTheInvariant :=
  fun ops _ hs => completes_runOps ops hs

/-- Settles O59: memory after `reset` lists nothing, so it reads as zero and FONT; the other items are the table of R30. -/
theorem resetGivesTheStatedState : Obligations.ResetGivesTheStatedState := by
  refine ⟨fun s => ?_, fun font => ⟨rfl, rfl, resetWith_keyDown font⟩, State.reset_eq⟩
  exact ⟨hostReset_getV s, rfl, State.hostReset_pc s, rfl, hostReset_slot s, rfl, rfl,
    fun _ => hostReset_readByte_below_font s, hostReset_readByte_font s, fun _ => hostReset_readByte_above_font s,
    State.hostReset_font s, Display.pixel_blank, State.hostReset_fault s, rfl, State.hostReset_key s⟩

end Sys2Proof.Scope
end

section
/-! PROOFS. The family 10_state.md: the invariant at reset and over every step (O18, O19), the frame of every instruction
(O28 to O32), what follows for a cycle (O13, O15, O16), PC after a cycle (O17), the flag writers (O27) and `Cxnn` (O26). -/

open Sys2Proof Sys2Proof.Machine

namespace Sys2Proof.StateItems

variable {s t : State} {it : Item}

/-! ### The invariant -/

/-- Settles O19: a cycle completes in one state, which meets the invariant. -/
theorem stepKeepsTheInvariant : Obligations.StepKeepsTheInvariant := by
  intro s t hs h
  obtain ⟨u, hu, hinv, -⟩ := Scope.completes_step hs
  obtain rfl : u = t := Host.Outcome.next.inj (hu.symm.trans h)
  exact hinv

/-- Settles O18: the state after reset is what the host's `reset` makes of itself. -/
theorem resetMeetsTheInvariant : Obligations.ResetMeetsTheInvariant := Scope.inv_hostReset State.reset

/-! ### What each update leaves unchanged -/

theorem same_refl (s : State) (it : Item) : it.same s s := by cases it <;> rfl

theorem same_trans {u : State} (h₁ : it.same s t) (h₂ : it.same t u) : it.same s u := by
  cases it <;> exact Eq.trans h₂ h₁

theorem same_setV {x : Reg} (h : it ≠ .v x) (b : Byte) : it.same s (s.setV x b) := by
  cases it with
  | v y => exact State.getV_setV_of_ne s (fun e => h (congrArg Item.v e)) b
  | _ => rfl

theorem same_setResultFlag {x : Reg} (hx : it ≠ .v x) (hf : it ≠ .v regF) (b : Byte) (f : Bool) :
    it.same s (s.setResultFlag x b f) :=
  same_trans (same_setV hx b) (same_setV hf (flagByte f))

theorem same_setI (h : it ≠ .i) (w : Word) : it.same s (s.setI w) := by
  cases it with
  | i => exact absurd rfl h
  | _ => rfl

theorem same_setPc (s : State) (it : Item) (w : Word) : it.same s (s.setPc w) := by cases it <;> rfl

theorem same_skipIf (s : State) (it : Item) (c : Bool) : it.same s (s.skipIf c) := by
  rw [State.skipIf_eq]
  exact same_setPc s it _

theorem same_setDt (h : it ≠ .dt) (b : Byte) : it.same s (s.setDt b) := by
  cases it with
  | dt => exact absurd rfl h
  | _ => rfl

theorem same_setSt (h : it ≠ .st) (b : Byte) : it.same s (s.setSt b) := by
  cases it with
  | st => exact absurd rfl h
  | _ => rfl

theorem same_raise (h : it ≠ .fault) (f : Fault) (addr opcode : Word) : it.same s (s.raise f addr opcode) := by
  cases it with
  | fault => exact absurd rfl h
  | _ => rfl

theorem same_drawRandom (h : it ≠ .randomDraws) : it.same s s.drawRandom.2 := by
  cases it with
  | randomDraws => exact absurd rfl h
  | _ => rfl

theorem same_withDisp (h : it.isPixel = false) (d : Display) : it.same s { s with disp := d } := by
  cases it with
  | pixel => simp [Item.isPixel] at h
  | _ => rfl

theorem same_setDrawn (hp : it.isPixel = false) (hf : it ≠ .v regF) (p : Display × Bool) : it.same s (s.setDrawn p) :=
  same_trans (same_withDisp hp p.1) (same_setV hf (flagByte p.2))

theorem same_push (h : s.push = some t) (hslot : it.isSlot s.sp.val = false) (hsp : it ≠ .sp) : it.same s t := by
  obtain ⟨hlt, rfl⟩ := State.push_eq_some h
  cases it with
  | sp => exact absurd rfl hsp
  | slot k =>
    have hne : k.val ≠ s.sp.val := by simpa [Item.isSlot] using hslot
    exact Vector.getElem_set_ne hlt k.isLt hne.symm
  | _ => rfl

theorem same_pop {w : Word} (h : s.pop = some (w, t)) (hsp : it ≠ .sp) : it.same s t := by
  obtain ⟨-, -, rfl⟩ := State.pop_eq_some h
  cases it with
  | sp => exact absurd rfl hsp
  | _ => rfl

theorem same_storeRun {base : Nat} {xs : List Byte} (h : s.storeRun base xs = some t)
    (hit : it.isByteOf base xs.length = false) : it.same s t := by
  cases it with
  | mem a =>
    refine State.readByte_storeRun_outside h ?_
    simp [Item.isByteOf] at hit
    omega
  | _ =>
    obtain ⟨-, rfl⟩ := State.storeRun_eq_some h
    rfl

theorem same_loadRegs {x : Reg} {bs : List Byte} (hlen : bs.length = countUpTo x) (h : it.isRegUpTo x = false) :
    it.same s (s.loadRegs 0 bs) := by
  cases it with
  | v y =>
    have hx := x.isLt
    have hy : x.toNat < y.toNat := by simpa [Item.isRegUpTo] using h
    rw [countUpTo] at hlen
    exact (State.getV_loadRegs y bs s 0 (by omega)).trans (dif_neg (by omega))
  | _ =>
    rw [State.loadRegs_eq]
    rfl

/-! ### The frame of every instruction (10_state.md R33) -/

/-- The item is as it was in `s` in the next state that is answered, if one is. -/
def Keeps (it : Item) (s : State) (r : Result) : Prop := ∀ t, r = .next t → it.same s t

theorem keeps_next (h : it.same s t) : Keeps it s (.next t) := fun _ ht => Host.Outcome.next.inj ht ▸ h

/-- A fault writes FAULT only. -/
theorem keeps_orRaise {f : Fault} {i : Instr} {r : Option State} (hf : it ≠ .fault)
    (h : ∀ u, r = some u → it.same s u) : Keeps it s (orRaise s f i r) := by
  intro t ht
  rcases orRaise_eq_next ht with hr | ⟨-, rfl⟩
  · exact h t hr
  · exact same_raise hf f _ _

theorem keeps_call (nnn : Addr12) (hslot : it.isSlot s.sp.val = false) (hsp : it ≠ .sp) (hf : it ≠ .fault) :
    Keeps it s (execCall nnn s) := by
  refine keeps_orRaise hf fun u hu => ?_
  obtain ⟨t, hpush, rfl⟩ := Option.map_eq_some_iff.1 hu
  exact same_trans (same_push hpush hslot hsp) (same_setPc t it _)

theorem keeps_ret (hsp : it ≠ .sp) (hf : it ≠ .fault) : Keeps it s (execRet s) := by
  refine keeps_orRaise hf fun u hu => ?_
  obtain ⟨⟨w, t⟩, hpop, rfl⟩ := Option.map_eq_some_iff.1 hu
  exact same_trans (same_pop hpop hsp) (same_setPc t it w)

theorem keeps_keySkip (i : Instr) (b : Byte) (c : Fin 16 → Bool) (hf : it ≠ .fault) :
    Keeps it s (orRaise s .keyIndexOutOfRange i ((keyIndex b).map fun k => s.skipIf (c k))) := by
  refine keeps_orRaise hf fun u hu => ?_
  obtain ⟨k, -, rfl⟩ := Option.map_eq_some_iff.1 hu
  exact same_skipIf s it (c k)

theorem keeps_drw (x y : Reg) (n : BitVec 4) (hp : it.isPixel = false) (hv : it ≠ .v regF) (hf : it ≠ .fault) :
    Keeps it s (execDrw x y n s) := by
  refine keeps_orRaise hf fun u hu => ?_
  obtain ⟨rows, -, rfl⟩ := Option.map_eq_some_iff.1 hu
  exact same_setDrawn hp hv _

theorem keeps_ldVxMem (x : Reg) (hv : it.isRegUpTo x = false) (hf : it ≠ .fault) : Keeps it s (execLdVxMem x s) := by
  refine keeps_orRaise hf fun u hu => ?_
  obtain ⟨bs, hload, rfl⟩ := Option.map_eq_some_iff.1 hu
  obtain ⟨-, rfl⟩ := State.loadRun_eq_some hload
  exact same_loadRegs (Memory.length_readRun _ _ _) hv

theorem keeps_ldVxK (x : Reg) (hv : it ≠ .v x) : Keeps it s (execLdVxK x s) := by
  unfold execLdVxK
  split
  · exact keeps_next (same_setV hv _)
  · exact keeps_next (same_setPc s it _)

/-- An instruction changes no item but those of its row of R33. -/
theorem keeps_exec (i : Instr) (h : mayWrite i s it = false) : Keeps it s (exec i s) := by
  cases i with
  | ldVxNn | addVxNn | ldVxVy | orVxVy | andVxVy | xorVxVy | ldVxDt =>
    exact keeps_next (same_setV (by simpa [mayWrite] using h) _)
  | addVxVy | subVxVy | shrVx | subnVxVy | shlVx =>
    obtain ⟨hx, hf⟩ : it ≠ .v _ ∧ it ≠ .v regF := by simpa [mayWrite] using h
    exact keeps_next (same_setResultFlag hx hf _ _)
  | rndVxNn x nn =>
    obtain ⟨hx, hr⟩ : it ≠ .v x ∧ it ≠ .randomDraws := by simpa [mayWrite] using h
    exact keeps_next (same_trans (same_drawRandom hr) (same_setV hx _))
  | jp | jpV0 => exact keeps_next (same_setPc s it _)
  | seVxNn | sneVxNn | seVxVy | sneVxVy => exact keeps_next (same_skipIf s it _)
  | unknown => exact keeps_next (same_refl s it)
  | call nnn =>
    obtain ⟨⟨hslot, hsp⟩, hf⟩ : (it.isSlot s.sp.val = false ∧ it ≠ .sp) ∧ it ≠ .fault := by simpa [mayWrite] using h
    exact keeps_call nnn hslot hsp hf
  | ret =>
    obtain ⟨hsp, hf⟩ : it ≠ .sp ∧ it ≠ .fault := by simpa [mayWrite] using h
    exact keeps_ret hsp hf
  | ldINnn | addIVx | ldFVx => exact keeps_next (same_setI (by simpa [mayWrite] using h) _)
  | ldBVx x =>
    obtain ⟨hm, hf⟩ : it.isByteOf (s.effAddr 0) 3 = false ∧ it ≠ .fault := by simpa [mayWrite] using h
    exact keeps_orRaise hf fun u hu => same_storeRun hu hm
  | ldMemVx x =>
    obtain ⟨hm, hf⟩ : it.isByteOf (s.effAddr 0) (x.toNat + 1) = false ∧ it ≠ .fault := by
      simpa [mayWrite, countUpTo] using h
    exact keeps_orRaise hf fun u hu => same_storeRun hu (by rwa [length_regsUpTo])
  | ldVxMem x =>
    obtain ⟨hv, hf⟩ : it.isRegUpTo x = false ∧ it ≠ .fault := by simpa [mayWrite] using h
    exact keeps_ldVxMem x hv hf
  | cls => exact keeps_next (same_withDisp h _)
  | drw x y n =>
    obtain ⟨⟨hp, hv⟩, hf⟩ : (it.isPixel = false ∧ it ≠ .v regF) ∧ it ≠ .fault := by simpa [mayWrite] using h
    exact keeps_drw x y n hp hv hf
  | skpVx x => exact keeps_keySkip (.skpVx x) _ s.keyDown (by simpa [mayWrite] using h)
  | sknpVx x => exact keeps_keySkip (.sknpVx x) _ (fun k => !s.keyDown k) (by simpa [mayWrite] using h)
  | ldVxK x => exact keeps_ldVxK x (by simpa [mayWrite] using h)
  | ldDtVx => exact keeps_next (same_setDt (by simpa [mayWrite] using h) _)
  | ldStVx => exact keeps_next (same_setSt (by simpa [mayWrite] using h) _)

/-- Settles O28: `keeps_exec`, the frame of every instruction, read for the ALU instructions. -/
theorem aluFrame : Obligations.AluFrame := fun i _ t _ _ ht h => keeps_exec i h t ht

/-- Settles O29: `keeps_exec`, the frame of every instruction, read for control transfer. -/
theorem flowFrame : Obligations.FlowFrame := fun i _ t _ _ ht h => keeps_exec i h t ht

/-- Settles O30: `keeps_exec`, the frame of every instruction, read for the index and memory instructions. -/
theorem indexMemoryFrame : Obligations.IndexMemoryFrame := fun i _ t _ _ ht h => keeps_exec i h t ht

/-- Settles O31: `keeps_exec`, the frame of every instruction, read for the display instructions. -/
theorem displayFrame : Obligations.DisplayFrame := fun i _ t _ _ ht h => keeps_exec i h t ht

/-- Settles O32: `keeps_exec`, the frame of every instruction, read for the key and timer instructions. -/
theorem keysTimersFrame : Obligations.KeysTimersFrame := fun i _ t _ _ ht h => keeps_exec i h t ht

/-- The frame as a list of items: an instruction that may write only items of the list changes only those. -/
theorem onlyChanges_of_exec {i : Instr} {its : List Item} (ht : exec i s = .next t)
    (h : ∀ it, it ∉ its → mayWrite i s it = false) : OnlyChanges s t its :=
  fun it hit => keeps_exec i (h it hit) t ht

/-! ### What changes in a cycle -/

/-- An item other than FAULT that a cycle changed is one that the fetched instruction may write. -/
theorem mayWrite_of_step_changes (hit : it ≠ .fault) (h : step s = .next t) (hne : ¬it.same s t) :
    ∃ op, s.fetch = some op ∧ exec (decodeWord op) s.advance = .next t ∧
      mayWrite (decodeWord op) s.advance it = true := by
  rcases step_cases s with ⟨-, hs⟩ | ⟨-, -, hs⟩ | ⟨op, -, -, hfetch, hs⟩
  · exact absurd (keeps_next (same_refl s it) t (hs.symm.trans h)) hne
  · exact absurd (keeps_next (same_raise hit _ _ _) t (hs.symm.trans h)) hne
  · have hexec := hs.symm.trans h
    refine ⟨op, hfetch, hexec, ?_⟩
    by_contra hw
    exact hne (same_trans (same_setPc s it _) (keeps_exec _ (Bool.eq_false_of_not_eq_true hw) t hexec))

theorem cls_or_drw_of_mayWrite_pixel {i : Instr} {r : Fin 32} {c : Fin 64} (h : mayWrite i s (.pixel r c) = true) :
    i = .cls ∨ ∃ x y n, i = .drw x y n := by
  cases i with
  | cls => exact .inl rfl
  | drw x y n => exact .inr ⟨x, y, n, rfl⟩
  | _ => simp [mayWrite, Item.isSlot, Item.isByteOf, Item.isRegUpTo] at h

theorem index_writer_of_mayWrite_i {i : Instr} (h : mayWrite i s .i = true) :
    (∃ nnn, i = .ldINnn nnn) ∨ (∃ x, i = .addIVx x) ∨ ∃ x, i = .ldFVx x := by
  cases i with
  | ldINnn nnn => exact .inl ⟨nnn, rfl⟩
  | addIVx x => exact .inr (.inl ⟨x, rfl⟩)
  | ldFVx x => exact .inr (.inr ⟨x, rfl⟩)
  | _ => simp [mayWrite, Item.isPixel, Item.isSlot, Item.isByteOf, Item.isRegUpTo] at h

theorem call_or_ret_of_mayWrite_stack {i : Instr} (h : mayWrite i s .sp = true ∨ ∃ k, mayWrite i s (.slot k) = true) :
    (∃ nnn, i = .call nnn) ∨ i = .ret := by
  cases i with
  | call nnn => exact .inl ⟨nnn, rfl⟩
  | ret => exact .inr rfl
  | _ => simp [mayWrite, Item.isPixel, Item.isByteOf, Item.isRegUpTo] at h

/-- Settles O15: of the instructions, only `00E0` and `Dxyn` may write a pixel. -/
theorem pixelsChangeOnlyByClearAndDraw : Obligations.PixelsChangeOnlyByClearAndDraw := by
  intro s t r c h hne
  obtain ⟨op, hfetch, -, hw⟩ := mayWrite_of_step_changes (it := .pixel r c) (by simp) h hne
  exact ⟨op, hfetch, cls_or_drw_of_mayWrite_pixel hw⟩

/-- Settles O16: of the instructions, only `Annn`, `Fx1E` and `Fx29` may write I. -/
theorem indexChangesOnlyByItsThreeWriters : Obligations.IndexChangesOnlyByItsThreeWriters := by
  intro s t h hne
  obtain ⟨op, hfetch, -, hw⟩ := mayWrite_of_step_changes (it := .i) (by simp) h hne
  exact ⟨op, hfetch, index_writer_of_mayWrite_i hw⟩

/-- A call that moves SP or a slot has pushed the advanced PC: its fault moves neither (41_flow.md R92). -/
theorem call_moves_stack {nnn : Addr12} (h : execCall nnn s = .next t) (hne : t.sp ≠ s.sp ∨ t.stack ≠ s.stack) :
    t.sp.val = s.sp.val + 1 ∧ ∀ k : Fin 16, t.stack[k.val] = if k.val = s.sp.val then s.pc else s.stack[k.val] := by
  rcases orRaise_eq_next h with hsome | ⟨-, rfl⟩
  · obtain ⟨u, hpush, rfl⟩ := Option.map_eq_some_iff.1 hsome
    obtain ⟨hlt, rfl⟩ := State.push_eq_some hpush
    refine ⟨rfl, fun k => ?_⟩
    rw [State.setPc_stack, Vector.getElem_set]
    simp only [eq_comm]
  · exact absurd hne (by simp [State.raiseIn_eq])

/-- A return that moves SP or a slot has popped, which leaves every slot (41_flow.md R90). -/
theorem ret_moves_stack (h : execRet s = .next t) (hne : t.sp ≠ s.sp ∨ t.stack ≠ s.stack) :
    t.sp.val + 1 = s.sp.val ∧ t.stack = s.stack := by
  rcases orRaise_eq_next h with hsome | ⟨-, rfl⟩
  · obtain ⟨⟨w, u⟩, hpop, rfl⟩ := Option.map_eq_some_iff.1 hsome
    obtain ⟨hsp, -, rfl⟩ := State.pop_eq_some hpop
    exact ⟨Nat.sub_add_cancel hsp, rfl⟩
  · exact absurd hne (by simp [State.raiseIn_eq])

/-- A cycle that moves SP or a slot runs an instruction that may write SP or a slot. -/
theorem mayWrite_stack_of_step_moves (h : step s = .next t) (hne : t.sp ≠ s.sp ∨ t.stack ≠ s.stack) :
    ∃ op, s.fetch = some op ∧ exec (decodeWord op) s.advance = .next t ∧
      (mayWrite (decodeWord op) s.advance .sp = true ∨ ∃ k, mayWrite (decodeWord op) s.advance (.slot k) = true) := by
  by_cases hsp : t.sp = s.sp
  · have hstack : ¬∀ k : Fin 16, t.stack[k.val] = s.stack[k.val] := fun hall =>
      hne.elim (· hsp) (· (Vector.ext fun k hk => hall ⟨k, hk⟩))
    obtain ⟨k, hk⟩ := not_forall.1 hstack
    obtain ⟨op, hfetch, hexec, hw⟩ := mayWrite_of_step_changes (it := .slot k) (by simp) h hk
    exact ⟨op, hfetch, hexec, .inr ⟨k, hw⟩⟩
  · obtain ⟨op, hfetch, hexec, hw⟩ := mayWrite_of_step_changes (it := .sp) (by simp) h hsp
    exact ⟨op, hfetch, hexec, .inl hw⟩

/-- Settles O13: only `2nnn` and `00EE` may write SP or a slot, and they move them by a push and a pop. -/
theorem stackMovesOnlyByCallAndReturn : Obligations.StackMovesOnlyByCallAndReturn := by
  intro s t h hne
  obtain ⟨op, hfetch, hexec, hw⟩ := mayWrite_stack_of_step_moves h hne
  refine ⟨op, hfetch, ?_⟩
  rcases call_or_ret_of_mayWrite_stack hw with ⟨nnn, hi⟩ | hi <;> rw [hi] at hexec
  · exact .inl ⟨nnn, hi, call_moves_stack (s := s.advance) hexec hne⟩
  · exact .inr ⟨hi, ret_moves_stack (s := s.advance) hexec hne⟩

/-! ### PC after a cycle (10_state.md R15) -/

/-- A next state is one with FAULT as in `s` and PC at `w`, or `s` with a fault of its execution raised. -/
def EndsAt (s : State) (w : Word) (r : Result) : Prop :=
  ∀ t, r = .next t → (t.fault = s.fault ∧ t.pc = w) ∨ ∃ f i, t = s.raiseIn f i

theorem endsAt_next {w : Word} (hf : t.fault = s.fault) (hpc : t.pc = w) : EndsAt s w (.next t) := by
  intro u hu
  obtain rfl : t = u := Host.Outcome.next.inj hu
  exact .inl ⟨hf, hpc⟩

theorem endsAt_orRaise {w : Word} {f : Fault} {i : Instr} {r : Option State}
    (h : ∀ u, r = some u → u.fault = s.fault ∧ u.pc = w) : EndsAt s w (orRaise s f i r) := by
  intro t ht
  rcases orRaise_eq_next ht with hr | ⟨-, rfl⟩
  · exact .inl (h t hr)
  · exact .inr ⟨f, i, rfl⟩

theorem skipIf_fault (s : State) (c : Bool) : (s.skipIf c).fault = s.fault := by rw [State.skipIf_eq, State.setPc_fault]

/-- PC after a skip of an instruction fetched from `a` (41_flow.md R94). -/
theorem skipIf_pc {a : Word} {p : Prop} [Decidable p] {c : Bool} (hpc : s.pc = a + 2) (hc : c = true ↔ p) :
    (s.skipIf c).pc = if p then a + 4 else a + 2 := by
  have hadd : a + 2 + 2 = a + 4 := BitVec.add_assoc a 2 2
  simp only [State.skipIf_eq, State.setPc_pc, hpc, hc, hadd]

/-- PC after a skip on the opposite condition (41_flow.md R95). -/
theorem skipIf_pc_not {a : Word} {p : Prop} [Decidable p] {c : Bool} (hpc : s.pc = a + 2) (hc : c = true ↔ ¬p) :
    (s.skipIf c).pc = if p then a + 2 else a + 4 := by
  rw [skipIf_pc hpc hc, ite_not]

/-- The key whose number a byte holds is down when some key of that number is. -/
theorem keyDown_iff_of_keyIndex {b : Byte} {k : Fin 16} (h : keyIndex b = some k) :
    s.keyDown k = true ↔ ∃ j : Fin 16, j.val = b.toNat ∧ s.keyDown j = true := by
  have hb : b.toNat = k.val := keyIndex_eq_some.1 h
  refine ⟨fun hk => ⟨k, hb.symm, hk⟩, ?_⟩
  rintro ⟨j, hj, hdown⟩
  rwa [← Fin.ext (hj.trans hb)]

theorem endsAt_ret (s : State) (a : Word) : EndsAt s (pcAfter .ret a s) (execRet s) := by
  refine endsAt_orRaise fun u hu => ?_
  obtain ⟨⟨w, t⟩, hpop, rfl⟩ := Option.map_eq_some_iff.1 hu
  obtain ⟨hsp, rfl, rfl⟩ := State.pop_eq_some hpop
  exact ⟨rfl, by rw [pcAfter, dif_pos hsp, State.setPc_pc]⟩

theorem endsAt_call (nnn : Addr12) : EndsAt s (nnn.setWidth 16) (execCall nnn s) := by
  refine endsAt_orRaise fun u hu => ?_
  obtain ⟨t, hpush, rfl⟩ := Option.map_eq_some_iff.1 hu
  obtain ⟨-, rfl⟩ := State.push_eq_some hpush
  exact ⟨rfl, rfl⟩

theorem endsAt_skpVx {a : Word} (hpc : s.pc = a + 2) (x : Reg) : EndsAt s (pcAfter (.skpVx x) a s) (execSkpVx x s) := by
  refine endsAt_orRaise fun u hu => ?_
  obtain ⟨k, hk, rfl⟩ := Option.map_eq_some_iff.1 hu
  exact ⟨skipIf_fault s _, skipIf_pc hpc (keyDown_iff_of_keyIndex hk)⟩

theorem endsAt_sknpVx {a : Word} (hpc : s.pc = a + 2) (x : Reg) :
    EndsAt s (pcAfter (.sknpVx x) a s) (execSknpVx x s) := by
  refine endsAt_orRaise fun u hu => ?_
  obtain ⟨k, hk, rfl⟩ := Option.map_eq_some_iff.1 hu
  have hup : (!s.keyDown k) = true ↔ ¬s.keyDown k = true := by simp
  exact ⟨skipIf_fault s _, skipIf_pc_not hpc (hup.trans (not_congr (keyDown_iff_of_keyIndex hk)))⟩

theorem endsAt_ldVxK {a : Word} (hpc : s.pc = a + 2) (x : Reg) : EndsAt s (pcAfter (.ldVxK x) a s) (execLdVxK x s) := by
  unfold execLdVxK
  split
  next k hk =>
    have hdown : ∃ k : Fin 16, s.keyDown k = true := ⟨k, (State.firstKey_eq_some hk).1⟩
    exact endsAt_next rfl (hpc.trans (if_pos hdown).symm)
  next hk =>
    have hup : ¬∃ k : Fin 16, s.keyDown k = true := by simpa using State.firstKey_eq_none.1 hk
    refine endsAt_next rfl (Eq.trans ?_ (if_neg hup).symm)
    rw [State.setPc_pc, hpc, BitVec.add_sub_cancel]

/-- A store through I leaves the advanced PC. -/
theorem endsAt_store {a : Word} (hpc : s.pc = a + 2) (f : Fault) (i : Instr) (base : Nat) (xs : List Byte) :
    EndsAt s (a + 2) (orRaise s f i (s.storeRun base xs)) := by
  refine endsAt_orRaise fun u hu => ?_
  obtain ⟨-, rfl⟩ := State.storeRun_eq_some hu
  exact ⟨rfl, hpc⟩

/-- A use of loaded bytes that leaves FAULT and PC. -/
theorem endsAt_load {a : Word} (hpc : s.pc = a + 2) (f : Fault) (i : Instr) (r : Option (List Byte))
    {g : List Byte → State} (hg : ∀ bs, (g bs).fault = s.fault ∧ (g bs).pc = s.pc) :
    EndsAt s (a + 2) (orRaise s f i (r.map g)) := by
  refine endsAt_orRaise fun u hu => ?_
  obtain ⟨bs, -, rfl⟩ := Option.map_eq_some_iff.1 hu
  exact ⟨(hg bs).1, (hg bs).2.trans hpc⟩

theorem loadRegs_fault_pc (s : State) (bs : List Byte) (k : Nat) :
    (s.loadRegs k bs).fault = s.fault ∧ (s.loadRegs k bs).pc = s.pc := by
  rw [State.loadRegs_eq]
  exact ⟨rfl, rfl⟩

/-- An instruction fetched from `a` leaves PC as the table of R15 says, or faults. -/
theorem endsAt_exec {a : Word} (hpc : s.pc = a + 2) (i : Instr) : EndsAt s (pcAfter i a s) (exec i s) := by
  cases i with
  | cls | ldVxNn | addVxNn | ldVxVy | orVxVy | andVxVy | xorVxVy | addVxVy | subVxVy | shrVx | subnVxVy | shlVx
  | rndVxNn | ldINnn | addIVx | ldFVx | ldVxDt | ldDtVx | ldStVx | unknown => exact endsAt_next rfl hpc
  | jp | jpV0 => exact endsAt_next rfl rfl
  | seVxNn | seVxVy => exact endsAt_next (skipIf_fault s _) (skipIf_pc hpc beq_iff_eq)
  | sneVxNn | sneVxVy => exact endsAt_next (skipIf_fault s _) (skipIf_pc_not hpc bne_iff_ne)
  | ret => exact endsAt_ret s a
  | call nnn => exact endsAt_call nnn
  | skpVx x => exact endsAt_skpVx hpc x
  | sknpVx x => exact endsAt_sknpVx hpc x
  | ldVxK x => exact endsAt_ldVxK hpc x
  | ldBVx | ldMemVx => exact endsAt_store hpc _ _ _ _
  | ldVxMem => exact endsAt_load hpc _ _ _ fun bs => loadRegs_fault_pc s bs 0
  | drw => exact endsAt_load hpc _ _ _ fun _ => ⟨rfl, rfl⟩

/-- The table of R15 does not look at PC but through the address given. -/
theorem pcAfter_setPc (i : Instr) (a w : Word) (s : State) : pcAfter i a (s.setPc w) = pcAfter i a s := by
  cases i <;> rfl

/-- Settles O17: a fetch fault leaves PC, and the fetched instruction ends where the table says or with a fault. -/
theorem pcAfterEveryCycle : Obligations.PcAfterEveryCycle := by
  intro s t hclear h
  rcases step_cases s with ⟨hf, -⟩ | ⟨-, hpc, hs⟩ | ⟨op, -, -, hfetch, hs⟩
  · simp [State.faulted_eq_false.2 hclear] at hf
  · have hnone : s.fetch = none := (State.fetch_eq_none s).2 hpc
    obtain rfl : s.raiseFetch = t := Host.Outcome.next.inj (hs.symm.trans h)
    simp [hnone]
  · have hend := endsAt_exec (s := s.advance) (a := s.pc) rfl (decodeWord op) t (hs.symm.trans h)
    simp only [State.advance_eq, pcAfter_setPc] at hend
    simp only [hfetch, reduceCtorEq, false_implies, true_and, Option.some.injEq, forall_eq']
    rcases hend with ⟨hfault, hpc⟩ | ⟨f, i, rfl⟩
    · exact ⟨fun hne => absurd ((congrArg FaultRecord.cause hfault).trans hclear) hne, fun _ => hpc⟩
    · exact ⟨fun _ => rfl, fun hnone => by simp [State.raiseIn_eq] at hnone⟩

/-! ### The flag and the random byte -/

theorem getV_setDrawn_regF (s : State) (p : Display × Bool) : (s.setDrawn p).getV 0xF = flagByte p.2 :=
  State.getV_setV_same _ _ _

/-- VF after an ALU instruction that defines a flag. -/
theorem flag_of_setResultFlag {x : Reg} {b : Byte} {f : Bool}
    (h : (.next (s.setResultFlag x b f) : Result) = .next t) : t.getV 0xF = 0 ∨ t.getV 0xF = 1 := by
  obtain rfl := Host.Outcome.next.inj h
  rw [State.getV_setResultFlag_regF]
  exact flagByte_zero_or_one f

/-- VF after a draw that did not fault (44_display.md R131). -/
theorem flag_of_drw {x y : Reg} {n : BitVec 4} (h : execDrw x y n s = .next t) (hf : t.fault.cause = none) :
    t.getV 0xF = 0 ∨ t.getV 0xF = 1 := by
  rcases orRaise_eq_next h with hsome | ⟨-, rfl⟩
  · obtain ⟨rows, -, rfl⟩ := Option.map_eq_some_iff.1 hsome
    rw [getV_setDrawn_regF]
    exact flagByte_zero_or_one _
  · simp [State.raiseIn_eq] at hf

/-- Settles O27: each of the six writes a flag byte to VF last. -/
theorem flagWritersLeaveZeroOrOne : Obligations.FlagWritersLeaveZeroOrOne := by
  rintro i s t x y n - (rfl | rfl | rfl | rfl | rfl | rfl) h hf
  iterate 5 · exact flag_of_setResultFlag h
  · exact flag_of_drw h hf

/-- Settles O26: the draw advances the count, V[x] gets the masked byte, and the frame gives the rest. -/
theorem randomIsMaskedByNn : Obligations.RandomIsMaskedByNn := by
  intro s x nn
  refine ⟨Scope.decodeWord_encode_of_pattern (i := .rndVxNn x nn) rfl, _, rfl, rfl, fun k => ?_, rfl,
    onlyChanges_of_exec (i := .rndVxNn x nn) rfl fun it hit => ?_⟩
  · rw [State.getV_setV_same, BitVec.getLsbD_and]
  · simpa [mayWrite] using hit

end Sys2Proof.StateItems
end

section
/-! PROOFS. The family 20_memory.md: a write and what it leaves (O48), one form per content (O49), the two instructions
that store to memory (O14), and stored code is fetched (O50). -/

open Sys2Proof Sys2Proof.Machine

namespace Sys2Proof.MemoryContents

variable {f : Font} {m : Memory} {s : State}

/-! ### Canonical memory (20_memory.md R40, log entry 9) -/

/-- Settles O48: read after write at the written address and at another, and the form a write keeps. -/
theorem memoryReadsBackTheLastWrite : Obligations.MemoryReadsBackTheLastWrite := by
  intro f m a b x hm ha
  refine ⟨Memory.wf_write ha x hm, ?_⟩
  split
  case isTrue hba => rw [hba, Memory.read_write_same hm]
  case isFalse hba => exact Memory.read_write_of_ne m hba x

theorem wf_tail {p : Host.Cell} (h : Memory.wf f (p :: m)) : Memory.wf f m :=
  ⟨h.1.of_cons, fun q hq => h.2 q (List.mem_cons_of_mem p hq)⟩

/-- An address that does not read as after reset has an entry. -/
theorem mem_of_read_ne_resetByte {a : Nat} (h : Memory.read f m a ≠ Memory.resetByte f a) :
    (a, Memory.read f m a) ∈ m := by
  induction m with
  | nil => exact absurd rfl h
  | cons p m ih =>
    obtain ⟨b, w⟩ := p
    rw [Memory.read_cons] at h ⊢
    split
    case isTrue hab => exact hab ▸ List.mem_cons_self
    case isFalse hab => exact List.mem_cons_of_mem _ (ih (by rwa [if_neg hab] at h))

/-- The byte of an entry is what its address reads as. -/
theorem read_of_mem {p : Host.Cell} (hm : Memory.wf f m) (hp : p ∈ m) : Memory.read f m p.1 = p.2 := by
  induction m with
  | nil => simp at hp
  | cons q m ih =>
    obtain ⟨b, w⟩ := q
    rw [Memory.read_cons]
    rcases List.mem_cons.1 hp with rfl | hp
    · exact if_pos rfl
    · have hlt : b < p.1 := List.rel_of_pairwise_cons hm.1 hp
      rw [if_neg (Nat.ne_of_gt hlt)]
      exact ih (wf_tail hm) hp

/-- The entries are the addresses that do not read as after reset, with what they read as. -/
theorem mem_iff_read (hm : Memory.wf f m) (p : Host.Cell) :
    p ∈ m ↔ Memory.read f m p.1 = p.2 ∧ p.2 ≠ Memory.resetByte f p.1 := by
  refine ⟨fun hp => ⟨read_of_mem hm hp, (hm.2 p hp).2⟩, ?_⟩
  rintro ⟨hread, hne⟩
  have hmem := mem_of_read_ne_resetByte (m := m) (hread ▸ hne)
  rwa [hread] at hmem

/-- Settles O49: reading decides which entries a canonical memory has, and their order is fixed. -/
theorem canonicalMemoriesThatReadAlikeAreEqual : Obligations.CanonicalMemoriesThatReadAlikeAreEqual := by
  intro f m m' hm hm' hread
  have : Std.Irrefl fun p q : Host.Cell => p.1 < q.1 := ⟨fun p => Nat.lt_irrefl p.1⟩
  have : Std.Antisymm fun p q : Host.Cell => p.1 < q.1 := ⟨fun _ _ h h' => absurd h' (Nat.lt_asymm h)⟩
  refine hm.1.eq_of_mem_iff hm'.1 fun p => ?_
  rw [mem_iff_read hm, mem_iff_read hm', hread]

/-! ### What a cycle stores (43_index_memory.md) -/

theorem isByteOf_mem_iff {base len a : Nat} : (Item.mem a).isByteOf base len = true ↔ base ≤ a ∧ a < base + len := by
  rw [Item.isByteOf, Bool.and_eq_true, decide_eq_true_iff, decide_eq_true_iff]

/-- Of the instructions, only `Fx33` and `Fx55` may write a byte of memory, and only one of their run. -/
theorem store_of_mayWrite_mem {i : Instr} {a : Nat} (h : mayWrite i s (.mem a) = true) :
    ∃ x, (i = .ldBVx x ∧ s.effAddr 0 ≤ a ∧ a < s.effAddr 0 + 3) ∨
      (i = .ldMemVx x ∧ s.effAddr 0 ≤ a ∧ a < s.effAddr 0 + (x.toNat + 1)) := by
  cases i with
  | ldBVx x => exact ⟨x, .inl ⟨rfl, isByteOf_mem_iff.1 (by simpa [mayWrite] using h)⟩⟩
  | ldMemVx x => exact ⟨x, .inr ⟨rfl, isByteOf_mem_iff.1 (by simpa [mayWrite, countUpTo] using h)⟩⟩
  | _ => simp [mayWrite, Item.isPixel, Item.isSlot, Item.isRegUpTo] at h

/-- Settles O14: the fetched instruction may write the byte, and PC's advance leaves I. -/
theorem memoryChangesOnlyByBcdAndStore : Obligations.MemoryChangesOnlyByBcdAndStore := by
  intro s t a h hne
  obtain ⟨op, hfetch, -, hw⟩ := StateItems.mayWrite_of_step_changes (it := .mem a) (by simp) h hne
  obtain ⟨x, hstore⟩ := store_of_mayWrite_mem hw
  exact ⟨op, x, hfetch, hstore⟩

/-! ### Stored code (20_memory.md R43, R44) -/

/-- A run inside MEM is stored. -/
theorem storeRun_of_inMemory {base : Nat} {xs : List Byte} (h : base + xs.length ≤ Config.memSize) :
    ∃ t, s.storeRun base xs = some t := by
  rw [← Option.ne_none_iff_exists', ne_eq, State.storeRun_eq_none, inMemory_iff.2 (.inr h)]
  decide

/-- `Fx55` stores V[0] to V[x] from I on (43_index_memory.md R124). -/
theorem readByte_of_exec_ldMemVx {x : Reg} (hm : Memory.wf s.font s.mem) (h : s.i.toNat + x.toNat ≤ 0xFFF) :
    ∃ t, exec (.ldMemVx x) s = .next t ∧
      ∀ k ≤ x.toNat, t.readByte (s.i.toNat + k) = some (s.getV (BitVec.ofNat 4 k)) := by
  have hlen := length_regsUpTo s x
  obtain ⟨t, ht⟩ := storeRun_of_inMemory (s := s) (base := s.effAddr 0) (xs := s.regsUpTo x)
    (by simp only [State.effAddr_zero, Config.memSize]; omega)
  refine ⟨t, congrArg (orRaise s .dataOutOfRange (.ldMemVx x)) ht, fun k hk => ?_⟩
  rw [← getElem_regsUpTo s x (by omega)]
  exact State.readByte_storeRun_inside hm ht (by omega)

/-- Two readable bytes are a word, high byte first (20_memory.md R43). -/
theorem fetchWord_of_readByte {a : Nat} {hi lo : Byte} (hhi : s.readByte a = some hi) (hlo : s.readByte (a + 1) = some lo) :
    s.fetchWord a = some (hi ++ lo) := by
  simp [State.fetchWord, hhi, hlo, wordOfBytes]

/-- Settles O50: a state with the stored memory and font reads the stored bytes, and a fetch is two reads. -/
theorem storedCodeIsFetchedAtOnce : Obligations.StoredCodeIsFetchedAtOnce := by
  intro s x k hm hx hk
  obtain ⟨t, hexec, hread⟩ := readByte_of_exec_ldMemVx hm hx
  refine ⟨t, hexec, fun u hfont hmem hpc => ?_⟩
  rw [State.fetch, hpc]
  apply fetchWord_of_readByte
  · rw [State.readByte_congr hfont hmem, hread k (by omega)]
  · rw [State.readByte_congr hfont hmem, Nat.add_assoc, hread (k + 1) hk]

end Sys2Proof.MemoryContents
end

section
/-! PROOFS. The family 30_encoding.md: the decoder and the encoder undo each other (O1, O2), the decoder follows the opcode
map (O3, O4), and the words outside it are the unknown ones, which do nothing (O5, O6, O7). -/

open Sys2Proof Sys2Proof.Machine

namespace Sys2Proof.Encoding

variable {op : Word} {i : Instr} {p : Pattern} {r : OpcodeRow}

/-! ### The table of unknown words (30_encoding.md R66), by top nibble -/

theorem unknownWord_top0 (h : fieldTop op = 0x0) : unknownWord op = (op != 0x00E0 && op != 0x00EE) := by
  rw [fieldTop] at h
  simp [unknownWord, h]

theorem unknownWord_top5 (h : fieldTop op = 0x5) : unknownWord op = (fieldN op != 0x0) := by
  rw [fieldTop] at h
  simp [unknownWord, h, fieldN]

theorem unknownWord_top8 (h : fieldTop op = 0x8) :
    unknownWord op = [0x8#4, 0x9#4, 0xA#4, 0xB#4, 0xC#4, 0xD#4, 0xF#4].contains (fieldN op) := by
  rw [fieldTop] at h
  simp [unknownWord, h, fieldN]

theorem unknownWord_top9 (h : fieldTop op = 0x9) : unknownWord op = (fieldN op != 0x0) := by
  rw [fieldTop] at h
  simp [unknownWord, h, fieldN]

theorem unknownWord_topE (h : fieldTop op = 0xE) : unknownWord op = (fieldNn op != 0x9E && fieldNn op != 0xA1) := by
  rw [fieldTop] at h
  simp [unknownWord, h, fieldNn]

theorem unknownWord_topF (h : fieldTop op = 0xF) :
    unknownWord op =
      !([0x07#8, 0x0A#8, 0x15#8, 0x18#8, 0x1E#8, 0x29#8, 0x33#8, 0x55#8, 0x65#8].contains (fieldNn op)) := by
  rw [fieldTop] at h
  simp [unknownWord, h, fieldNn]

/-- The top nibbles under which every word is an instruction's: no row of R66 has one of them. -/
def fullTops : List (BitVec 4) := [0x1, 0x2, 0x3, 0x4, 0x6, 0x7, 0xA, 0xB, 0xC, 0xD]

theorem unknownWord_of_full_top (h : fieldTop op ∈ fullTops) : unknownWord op = false := by
  rw [fieldTop] at h
  simp only [fullTops, List.mem_cons, List.not_mem_nil, or_false] at h
  rcases h with h | h | h | h | h | h | h | h | h | h <;> simp [unknownWord, h]

/-! ### The decoder under the top nibbles that have unknown words (30_encoding.md R65) -/

theorem decodeWord_top0 (h : fieldTop op = 0x0) :
    decodeWord op = if fieldNnn op = 0x0E0 then .cls else if fieldNnn op = 0x0EE then .ret else .unknown op := by
  simp [decodeWord, h]

theorem decodeWord_top5 (h : fieldTop op = 0x5) :
    decodeWord op = if fieldN op = 0x0 then .seVxVy (fieldX op) (fieldY op) else .unknown op := by
  simp [decodeWord, h]

theorem decodeWord_top8 (h : fieldTop op = 0x8) : decodeWord op = decodeTop8 op := by
  simp [decodeWord, h]

theorem decodeWord_top9 (h : fieldTop op = 0x9) :
    decodeWord op = if fieldN op = 0x0 then .sneVxVy (fieldX op) (fieldY op) else .unknown op := by
  simp [decodeWord, h]

theorem decodeWord_topE (h : fieldTop op = 0xE) :
    decodeWord op = if fieldNn op = 0x9E then .skpVx (fieldX op)
      else if fieldNn op = 0xA1 then .sknpVx (fieldX op) else .unknown op := by
  simp [decodeWord, h]

theorem decodeWord_topF (h : fieldTop op = 0xF) : decodeWord op = decodeTopF op := by
  simp [decodeWord, h]

/-! ### What a decoded word encodes to -/

/-- `i` is a legal reading of `op`: it is well formed, and `op` is its word. -/
def Reads (op : Word) (i : Instr) : Prop := i.wf = true ∧ encode i = op

theorem nnn_rebuilds {t : BitVec 4} (ht : fieldTop op = t) : t ++ fieldNnn op = op := ht ▸ top_append_nnn op

theorem xnn_rebuilds {t : BitVec 4} (ht : fieldTop op = t) : t ++ fieldX op ++ fieldNn op = op := ht ▸ top_append_xnn op

theorem xyn_rebuilds {t n : BitVec 4} (ht : fieldTop op = t) (hn : fieldN op = n) :
    t ++ fieldX op ++ fieldY op ++ n = op := ht ▸ hn ▸ top_append_xyn op

theorem xkk_rebuilds {t : BitVec 4} {kk : Byte} (ht : fieldTop op = t) (hkk : fieldNn op = kk) :
    t ++ fieldX op ++ kk = op := ht ▸ hkk ▸ top_append_xnn op

theorem reads_unknown (h : unknownWord op = true) : Reads op (.unknown op) := ⟨h, rfl⟩

theorem reads_full_top (h : fieldTop op ∈ fullTops) : Reads op (decodeWord op) := by
  simp only [fullTops, List.mem_cons, List.not_mem_nil, or_false] at h
  rcases h with h | h | h | h | h | h | h | h | h | h
  · simpa [Reads, Instr.wf, decodeWord, encode, h] using nnn_rebuilds h
  · simpa [Reads, Instr.wf, decodeWord, encode, h] using nnn_rebuilds h
  · simpa [Reads, Instr.wf, decodeWord, encode, h] using xnn_rebuilds h
  · simpa [Reads, Instr.wf, decodeWord, encode, h] using xnn_rebuilds h
  · simpa [Reads, Instr.wf, decodeWord, encode, h] using xnn_rebuilds h
  · simpa [Reads, Instr.wf, decodeWord, encode, h] using xnn_rebuilds h
  · simpa [Reads, Instr.wf, decodeWord, encode, h] using nnn_rebuilds h
  · simpa [Reads, Instr.wf, decodeWord, encode, h] using nnn_rebuilds h
  · simpa [Reads, Instr.wf, decodeWord, encode, h] using xnn_rebuilds h
  · simpa [Reads, Instr.wf, decodeWord, encode, h] using xyn_rebuilds h rfl

theorem reads_top0 (ht : fieldTop op = 0x0) : Reads op (decodeWord op) := by
  rw [decodeWord_top0 ht]
  split_ifs with hcls hret
  · exact ⟨rfl, by rw [← nnn_rebuilds ht, hcls]; rfl⟩
  · exact ⟨rfl, by rw [← nnn_rebuilds ht, hret]; rfl⟩
  · have h₁ : op ≠ 0x00E0 := fun h => hcls (h ▸ rfl)
    have h₂ : op ≠ 0x00EE := fun h => hret (h ▸ rfl)
    exact reads_unknown ((unknownWord_top0 ht).trans (by simpa using ⟨h₁, h₂⟩))

theorem reads_top5 (ht : fieldTop op = 0x5) : Reads op (decodeWord op) := by
  rw [decodeWord_top5 ht]
  split_ifs with hn
  · exact ⟨rfl, xyn_rebuilds ht hn⟩
  · exact reads_unknown ((unknownWord_top5 ht).trans (by simpa using hn))

/-- The bottom nibbles of the `8xy_` family are its nine instructions' and the seven of R66. -/
theorem top8_nibbles (n : BitVec 4) : n ∈ [0x0#4, 0x1, 0x2, 0x3, 0x4, 0x5, 0x6, 0x7, 0xE] ∨
    n ∈ [0x8#4, 0x9#4, 0xA#4, 0xB#4, 0xC#4, 0xD#4, 0xF#4] := by
  revert n
  decide

theorem reads_top8 (ht : fieldTop op = 0x8) : Reads op (decodeWord op) := by
  rw [decodeWord_top8 ht, decodeTop8]
  split_ifs with h0 h1 h2 h3 h4 h5 h6 h7 hE
  case neg =>
    have hn := (top8_nibbles (fieldN op)).resolve_left (by simpa using ⟨h0, h1, h2, h3, h4, h5, h6, h7, hE⟩)
    exact reads_unknown ((unknownWord_top8 ht).trans (List.contains_iff_mem.2 hn))
  all_goals exact ⟨rfl, xyn_rebuilds ht ‹_›⟩

theorem reads_top9 (ht : fieldTop op = 0x9) : Reads op (decodeWord op) := by
  rw [decodeWord_top9 ht]
  split_ifs with hn
  · exact ⟨rfl, xyn_rebuilds ht hn⟩
  · exact reads_unknown ((unknownWord_top9 ht).trans (by simpa using hn))

theorem reads_topE (ht : fieldTop op = 0xE) : Reads op (decodeWord op) := by
  rw [decodeWord_topE ht]
  split_ifs with h9E hA1
  · exact ⟨rfl, xkk_rebuilds ht h9E⟩
  · exact ⟨rfl, xkk_rebuilds ht hA1⟩
  · exact reads_unknown ((unknownWord_topE ht).trans (by simpa using ⟨h9E, hA1⟩))

theorem reads_topF (ht : fieldTop op = 0xF) : Reads op (decodeWord op) := by
  rw [decodeWord_topF ht, decodeTopF]
  split_ifs with h07 h0A h15 h18 h1E h29 h33 h55 h65
  case neg =>
    exact reads_unknown
      ((unknownWord_topF ht).trans (by simpa using ⟨h07, h0A, h15, h18, h1E, h29, h33, h55, h65⟩))
  all_goals exact ⟨rfl, xkk_rebuilds ht ‹_›⟩

/-- A top nibble is full or one of the six that the table of R66 lists. -/
theorem top_cases (t : BitVec 4) : t ∈ fullTops ∨ t = 0x0 ∨ t = 0x5 ∨ t = 0x8 ∨ t = 0x9 ∨ t = 0xE ∨ t = 0xF := by
  revert t
  decide

theorem reads_decodeWord (op : Word) : Reads op (decodeWord op) := by
  rcases top_cases (fieldTop op) with h | h | h | h | h | h | h
  · exact reads_full_top h
  · exact reads_top0 h
  · exact reads_top5 h
  · exact reads_top8 h
  · exact reads_top9 h
  · exact reads_topE h
  · exact reads_topF h

/-- Settles O2: in every branch of the decoder the fields it hands on rebuild the word, and the words left over are those
of the table of R66. -/
theorem everyWordDecodesAndEncodesBack : Obligations.EveryWordDecodesAndEncodesBack := reads_decodeWord

/-! ### Words that are no instruction's -/

/-- A word decodes to an instruction of the map or to the unknown opcode of that word. -/
theorem decodeWord_cases (op : Word) : (∃ p, (decodeWord op).pattern = some p) ∨ decodeWord op = .unknown op := by
  obtain ⟨-, hword⟩ := reads_decodeWord op
  cases h : decodeWord op with
  | unknown op' => exact .inr (congrArg Instr.unknown (by rwa [h] at hword))
  | _ => exact .inl ⟨_, rfl⟩

theorem unknownWord_encode_of_pattern (i : Instr) (p : Pattern) (h : i.pattern = some p) :
    unknownWord (encode i) = false := by
  cases i with
  | unknown => simp [Instr.pattern] at h
  | cls | ret => decide
  | seVxVy => simp [encode, unknownWord_top5]
  | ldVxVy | orVxVy | andVxVy | xorVxVy | addVxVy | subVxVy | shrVx | subnVxVy | shlVx => simp [encode, unknownWord_top8]
  | sneVxVy => simp [encode, unknownWord_top9]
  | skpVx | sknpVx => simp [encode, unknownWord_topE]
  | ldVxDt | ldVxK | ldDtVx | ldStVx | addIVx | ldFVx | ldBVx | ldMemVx | ldVxMem => simp [encode, unknownWord_topF]
  | jp | call | ldINnn | jpV0 | seVxNn | sneVxNn | ldVxNn | addVxNn | rndVxNn | drw =>
    exact unknownWord_of_full_top (by simp [encode, fullTops])

theorem decodeWord_eq_unknown_iff (op : Word) : decodeWord op = .unknown op ↔ unknownWord op = true where
  mp h := by
    have hwf := (reads_decodeWord op).1
    rwa [h] at hwf
  mpr h := by
    refine (decodeWord_cases op).resolve_left fun ⟨p, hp⟩ => ?_
    have hfalse := unknownWord_encode_of_pattern _ p hp
    rw [(reads_decodeWord op).2, h] at hfalse
    cases hfalse

theorem exec_unknown (op : Word) (s : State) : exec (.unknown op) s = .next s := rfl

/-- Settles O5: what decodes to the unknown opcode is a well-formed one, and no word of R66 is an instruction's. -/
theorem unknownWordsAreTheListedNoOps : Obligations.UnknownWordsAreTheListedNoOps :=
  ⟨decodeWord_eq_unknown_iff, exec_unknown⟩

/-- Settles O1: an instruction of the map is decoded by its fields, and a well-formed unknown opcode is a word of R66. -/
theorem decodeOfEncodeIsTheInstruction : Obligations.DecodeOfEncodeIsTheInstruction := by
  intro i hwf
  cases h : i.pattern with
  | some p => exact Scope.decodeWord_encode_of_pattern h
  | none =>
    cases i with
    | unknown op => exact (decodeWord_eq_unknown_iff op).2 hwf
    | _ => cases h

/-! ### What a mask tells about the fields (30_encoding.md R64) -/

/-- A mask that covers a field fixes it. -/
theorem extract_of_and_eq {m v : Word} (h : op &&& m = v) {start len : Nat}
    (hm : m.extractLsb' start len = BitVec.allOnes len) : op.extractLsb' start len = v.extractLsb' start len := by
  rw [← h, BitVec.extractLsb'_and, hm, BitVec.and_allOnes]

/-- A mask of low bits keeps the field that those bits are. -/
theorem and_low_mask (n : Nat) (op : Word) :
    op &&& (BitVec.allOnes n).setWidth 16 = (op.extractLsb' 0 n).setWidth 16 := by
  ext i hi
  by_cases h : i < n <;> simp [h, BitVec.getLsbD_eq_getElem hi]

theorem fieldN_ne {n : BitVec 4} (h : op &&& 0x000F ≠ n.setWidth 16) : fieldN op ≠ n :=
  fun hn => h ((and_low_mask 4 op).trans (congrArg (BitVec.setWidth 16) hn))

theorem fieldNn_ne {nn : Byte} (h : op &&& 0x00FF ≠ nn.setWidth 16) : fieldNn op ≠ nn :=
  fun hnn => h ((and_low_mask 8 op).trans (congrArg (BitVec.setWidth 16) hnn))

/-! ### The ambiguous words (30_encoding.md R67, 93_implementation_defined.md U5) -/

/-- The words of U5 stand in the table of R66. -/
theorem unknownWord_of_ambiguousWord (h : ambiguousWord op = true) : unknownWord op = true := by
  have htop {v : Word} (h : op &&& 0xF000 = v) : fieldTop op = fieldTop v := extract_of_and_eq h (by decide)
  simp only [ambiguousWord, Bool.or_eq_true, Bool.and_eq_true, beq_iff_eq, bne_iff_ne] at h
  rcases h with (⟨h5 | h9, hn⟩ | ⟨⟨⟨h0, -⟩, hcls⟩, hret⟩) | ⟨⟨⟨hE, -⟩, h9E⟩, hA1⟩
  · rw [unknownWord_top5 (htop h5)]
    simpa using fieldN_ne hn
  · rw [unknownWord_top9 (htop h9)]
    simpa using fieldN_ne hn
  · rw [unknownWord_top0 (htop h0)]
    simpa using ⟨hcls, hret⟩
  · rw [unknownWord_topE (htop hE)]
    simpa using ⟨fieldNn_ne h9E, fieldNn_ne hA1⟩

/-- Settles O6: an ambiguous word is an unknown one. -/
theorem ambiguousWordsDoNothing : Obligations.AmbiguousWordsDoNothing := by
  intro op s h
  have hdecode := (decodeWord_eq_unknown_iff op).2 (unknownWord_of_ambiguousWord h)
  exact ⟨hdecode, hdecode ▸ exec_unknown op s⟩

/-! ### The opcode map (30_encoding.md R64, R65) -/

/-- Under a full top nibble, the top nibble alone decides the row. -/
theorem pattern_congr_of_top {v : Word} (hv : fieldTop v ∈ fullTops) (htop : fieldTop op = fieldTop v) :
    (decodeWord op).pattern = (decodeWord v).pattern := by
  simp only [fullTops, List.mem_cons, List.not_mem_nil, or_false] at hv
  rcases hv with hv | hv | hv | hv | hv | hv | hv | hv | hv | hv <;> simp [decodeWord, Instr.pattern, htop, hv]

/-- Under tops 5, 8 and 9 the top nibble and the bottom nibble decide it. -/
theorem pattern_congr_of_n {v : Word} (hv : fieldTop v = 0x5 ∨ fieldTop v = 0x8 ∨ fieldTop v = 0x9)
    (htop : fieldTop op = fieldTop v) (hn : fieldN op = fieldN v) : (decodeWord op).pattern = (decodeWord v).pattern := by
  rcases hv with hv | hv | hv
  · rw [decodeWord_top5 (htop.trans hv), decodeWord_top5 hv, hn]
    split <;> rfl
  · rw [decodeWord_top8 (htop.trans hv), decodeWord_top8 hv, decodeTop8, decodeTop8, hn]
    split_ifs <;> rfl
  · rw [decodeWord_top9 (htop.trans hv), decodeWord_top9 hv, hn]
    split <;> rfl

/-- Under tops E and F the top nibble and the bottom byte decide it. -/
theorem pattern_congr_of_nn {v : Word} (hv : fieldTop v = 0xE ∨ fieldTop v = 0xF) (htop : fieldTop op = fieldTop v)
    (hnn : fieldNn op = fieldNn v) : (decodeWord op).pattern = (decodeWord v).pattern := by
  rcases hv with hv | hv
  · rw [decodeWord_topE (htop.trans hv), decodeWord_topE hv, hnn]
    split_ifs <;> rfl
  · rw [decodeWord_topF (htop.trans hv), decodeWord_topF hv, decodeTopF, decodeTopF, hnn]
    split_ifs <;> rfl

/-- The mask of a row covers the fields that decide between the rows of its top nibble. -/
theorem mask_cases (hr : r ∈ opcodeRows) :
    r.mask = 0xFFFF ∨ (r.mask = 0xF000 ∧ fieldTop r.value ∈ fullTops) ∨
      (r.mask = 0xF00F ∧ (fieldTop r.value = 0x5 ∨ fieldTop r.value = 0x8 ∨ fieldTop r.value = 0x9)) ∨
      (r.mask = 0xF0FF ∧ (fieldTop r.value = 0xE ∨ fieldTop r.value = 0xF)) := by
  revert r
  decide

/-- A word that selects a row decodes to the same row as the row's match word. -/
theorem pattern_decodeWord_value (hr : r ∈ opcodeRows) (h : r.selects op) :
    (decodeWord op).pattern = (decodeWord r.value).pattern := by
  have hsel : op &&& r.mask = r.value := h
  rcases mask_cases hr with hm | ⟨hm, hv⟩ | ⟨hm, hv⟩ | ⟨hm, hv⟩ <;> rw [hm] at hsel
  · rw [← hsel]
    exact congrArg (fun w => (decodeWord w).pattern) BitVec.and_allOnes.symm
  · exact pattern_congr_of_top hv (extract_of_and_eq hsel (by decide))
  · exact pattern_congr_of_n hv (extract_of_and_eq hsel (by decide)) (extract_of_and_eq hsel (by decide))
  · exact pattern_congr_of_nn hv (extract_of_and_eq hsel (by decide)) (extract_of_and_eq hsel (by decide))

theorem pattern_decodeWord_of_selects (hr : r ∈ opcodeRows) (h : r.selects op) :
    (decodeWord op).pattern = some r.pattern :=
  (pattern_decodeWord_value hr h).trans
    ((by decide : ∀ r ∈ opcodeRows, (decodeWord r.value).pattern = some r.pattern) r hr)

/-- A row is named by its pattern. -/
theorem row_eq_of_pattern_eq {r' : OpcodeRow} (hr : r ∈ opcodeRows) (hr' : r' ∈ opcodeRows)
    (h : r.pattern = r'.pattern) : r = r' :=
  List.inj_on_of_nodup_map (by decide : (opcodeRows.map OpcodeRow.pattern).Nodup) hr hr' h

open Laws in
theorem encode_selects_row : ∀ i, EncodeSelectsRow.Statement i
  | .cls => EncodeSelectsRow.cls
  | .ret => EncodeSelectsRow.ret
  | .jp a => EncodeSelectsRow.jp a
  | .call a => EncodeSelectsRow.call a
  | .seVxNn x b => EncodeSelectsRow.seVxNn x b
  | .sneVxNn x b => EncodeSelectsRow.sneVxNn x b
  | .seVxVy x y => EncodeSelectsRow.seVxVy x y
  | .ldVxNn x b => EncodeSelectsRow.ldVxNn x b
  | .addVxNn x b => EncodeSelectsRow.addVxNn x b
  | .ldVxVy x y => EncodeSelectsRow.ldVxVy x y
  | .orVxVy x y => EncodeSelectsRow.orVxVy x y
  | .andVxVy x y => EncodeSelectsRow.andVxVy x y
  | .xorVxVy x y => EncodeSelectsRow.xorVxVy x y
  | .addVxVy x y => EncodeSelectsRow.addVxVy x y
  | .subVxVy x y => EncodeSelectsRow.subVxVy x y
  | .shrVx x y => EncodeSelectsRow.shrVx x y
  | .subnVxVy x y => EncodeSelectsRow.subnVxVy x y
  | .shlVx x y => EncodeSelectsRow.shlVx x y
  | .sneVxVy x y => EncodeSelectsRow.sneVxVy x y
  | .ldINnn a => EncodeSelectsRow.ldINnn a
  | .jpV0 a => EncodeSelectsRow.jpV0 a
  | .rndVxNn x b => EncodeSelectsRow.rndVxNn x b
  | .drw x y n => EncodeSelectsRow.drw x y n
  | .skpVx x => EncodeSelectsRow.skpVx x
  | .sknpVx x => EncodeSelectsRow.sknpVx x
  | .ldVxDt x => EncodeSelectsRow.ldVxDt x
  | .ldVxK x => EncodeSelectsRow.ldVxK x
  | .ldDtVx x => EncodeSelectsRow.ldDtVx x
  | .ldStVx x => EncodeSelectsRow.ldStVx x
  | .addIVx x => EncodeSelectsRow.addIVx x
  | .ldFVx x => EncodeSelectsRow.ldFVx x
  | .ldBVx x => EncodeSelectsRow.ldBVx x
  | .ldMemVx x => EncodeSelectsRow.ldMemVx x
  | .ldVxMem x => EncodeSelectsRow.ldVxMem x
  | .unknown op => EncodeSelectsRow.unknown op

theorem selects_of_pattern_decodeWord (hr : r ∈ opcodeRows) (h : (decodeWord op).pattern = some r.pattern) :
    r.selects op := by
  obtain ⟨hwf, hword⟩ := reads_decodeWord op
  obtain ⟨r', hr', hp, hsel⟩ := encode_selects_row _ hwf _ h
  rwa [hword, row_eq_of_pattern_eq hr' hr hp] at hsel

/-- Settles O3: a selected row fixes the fields the decoder tests, and the encoding of what is decoded selects its row. -/
theorem decoderFollowsMaskAndMatch : Obligations.DecoderFollowsMaskAndMatch := fun _ _ hr =>
  ⟨pattern_decodeWord_of_selects hr, selects_of_pattern_decodeWord hr⟩

/-- Settles O4: a word has one decoding, and it is of each row the word selects. -/
theorem noWordSelectsTwoRows : Obligations.NoWordSelectsTwoRows := by
  intro op r hr r' hr' h h'
  have hp := pattern_decodeWord_of_selects hr h
  rw [pattern_decodeWord_of_selects hr' h'] at hp
  exact row_eq_of_pattern_eq hr hr' (Option.some.inj hp).symm

/-- Settles O7, by running the decoder on the twelve words. -/
theorem writtenOutWordsDecode : Obligations.WrittenOutWordsDecode := by
  unfold Obligations.WrittenOutWordsDecode
  decide

end Sys2Proof.Encoding
end

section
/-! PROOFS. The family 40_cycle.md: a step is one `cycle()` (O8), it changes neither KEY nor, but by `Fx15` and `Fx18`, a
timer (O12), and a return undoes a call (O40). -/

open Sys2Proof Sys2Proof.Machine

namespace Sys2Proof.Cycle

variable {s t : State}

/-! ### The step, an equation per case (40_cycle.md R80) -/

theorem step_of_faulted (h : s.faulted = true) : step s = .next s := if_pos h

theorem step_of_fetch_eq_none (hf : s.faulted = false) (h : s.fetch = none) : step s = .next s.raiseFetch := by
  simp [step, hf, h]

theorem step_of_fetch_eq_some {op : Word} (hf : s.faulted = false) (h : s.fetch = some op) :
    step s = exec (decodeWord op) s.advance := by
  simp [step, hf, h]

/-- Settles O8: the three clauses are the three cases of a step, and a fetch is two reads. -/
theorem stepRunsTheDecodedInstruction : Obligations.StepRunsTheDecodedInstruction := by
  refine ⟨fun s hfault => ?_, fun s hclear hpc => ?_, fun s hi lo hclear hhi hlo => ?_⟩
  · exact step_of_faulted (Option.isSome_iff_ne_none.2 hfault)
  · exact step_of_fetch_eq_none (State.faulted_eq_false.2 hclear) ((State.fetch_eq_none s).2 hpc)
  · exact step_of_fetch_eq_some (State.faulted_eq_false.2 hclear) (MemoryContents.fetchWord_of_readByte hhi hlo)

/-! ### KEY and the timers over a cycle (40_cycle.md R86) -/

/-- KEY stands in no row of R33. -/
theorem mayWrite_key (i : Instr) (s : State) (k : Fin 16) : mayWrite i s (.key k) = false := by
  cases i <;> rfl

theorem ldDtVx_of_mayWrite_dt {i : Instr} (h : mayWrite i s .dt = true) : ∃ x, i = .ldDtVx x := by
  cases i with
  | ldDtVx x => exact ⟨x, rfl⟩
  | _ => simp [mayWrite, Item.isPixel, Item.isSlot, Item.isByteOf, Item.isRegUpTo] at h

theorem ldStVx_of_mayWrite_st {i : Instr} (h : mayWrite i s .st = true) : ∃ x, i = .ldStVx x := by
  cases i with
  | ldStVx x => exact ⟨x, rfl⟩
  | _ => simp [mayWrite, Item.isPixel, Item.isSlot, Item.isByteOf, Item.isRegUpTo] at h

theorem step_key (h : step s = .next t) : t.key = s.key := by
  refine Vector.ext fun k hk => ?_
  by_contra hne
  obtain ⟨op, -, -, hw⟩ := StateItems.mayWrite_of_step_changes (it := .key ⟨k, hk⟩) (by simp) h hne
  simp [mayWrite_key] at hw

/-- The value `Fx15` writes to DT (45_keys_timers.md R144). -/
theorem dt_of_exec_ldDtVx {x : Reg} (h : exec (.ldDtVx x) s = .next t) : t.dt = s.getV x :=
  Host.Outcome.next.inj h ▸ rfl

/-- The value `Fx18` writes to ST (45_keys_timers.md R145). -/
theorem st_of_exec_ldStVx {x : Reg} (h : exec (.ldStVx x) s = .next t) : t.st = s.getV x :=
  Host.Outcome.next.inj h ▸ rfl

/-- Settles O12: no instruction may write KEY, and of the instructions only `Fx15` may write DT and only `Fx18` ST. -/
theorem cycleNeitherTicksNorChangesKeys : Obligations.CycleNeitherTicksNorChangesKeys := by
  intro s t h
  refine ⟨step_key h, fun hne => ?_, fun hne => ?_⟩
  · obtain ⟨op, hfetch, hexec, hw⟩ := StateItems.mayWrite_of_step_changes (it := .dt) (by simp) h hne
    obtain ⟨x, hi⟩ := ldDtVx_of_mayWrite_dt hw
    rw [hi] at hexec
    exact ⟨op, x, hfetch, hi, dt_of_exec_ldDtVx (s := s.advance) hexec⟩
  · obtain ⟨op, hfetch, hexec, hw⟩ := StateItems.mayWrite_of_step_changes (it := .st) (by simp) h hne
    obtain ⟨x, hi⟩ := ldStVx_of_mayWrite_st hw
    rw [hi] at hexec
    exact ⟨op, x, hfetch, hi, st_of_exec_ldStVx (s := s.advance) hexec⟩

/-! ### A call and its return (41_flow.md R90, R92) -/

theorem push_of_lt (h : s.sp.val < 16) :
    s.push = some { s with stack := s.stack.set s.sp.val s.pc h, sp := ⟨s.sp.val + 1, by omega⟩ } := dif_pos h

theorem pop_of_pos (h : 0 < s.sp.val) :
    s.pop = some (s.stack[s.sp.val - 1]'(by omega), { s with sp := ⟨s.sp.val - 1, by omega⟩ }) := dif_pos h

/-- A call with a free slot pushes and jumps. -/
theorem exec_call_of_push (nnn : Addr12) (h : s.push = some t) : exec (.call nnn) s = .next (t.setPc (zextAddr nnn)) := by
  simp [exec, execCall, h, orRaise_some]

/-- A return from a stack that is not empty pops PC. -/
theorem exec_ret_of_pop {w : Word} (h : s.pop = some (w, t)) : exec .ret s = .next (t.setPc w) := by
  simp [exec, execRet, h, orRaise_some]

/-- A pop undoes a push, wherever PC has gone in between: it gives the PC that was pushed, and SP is as it was. -/
theorem pop_setPc_of_push (h : s.push = some t) (w : Word) :
    ∃ u, (t.setPc w).pop = some (s.pc, u) ∧ u.sp = s.sp := by
  obtain ⟨hlt, rfl⟩ := State.push_eq_some h
  refine ⟨_, (pop_of_pos (Nat.succ_pos _)).trans (congrArg some (Prod.ext ?_ rfl)), rfl⟩
  exact Vector.getElem_set_self _

/-- Settles O40: the call pushes the advanced PC, and the pop of the return gives it back. -/
theorem returnUndoesCall : Obligations.ReturnUndoesCall := by
  intro s nnn w h
  have hpush := push_of_lt h
  obtain ⟨u, hpop, hsp⟩ := pop_setPc_of_push hpush w
  exact ⟨_, u.setPc s.pc, exec_call_of_push nnn hpush, exec_ret_of_pop hpop, rfl, hsp⟩

end Sys2Proof.Cycle
end

section
/-! PROOFS. The family 41_flow.md: the jumps (O33, O34, O41), the call and the return (O35, O36) and the skips (O37 to
O39). -/

open Sys2Proof Sys2Proof.Machine

namespace Sys2Proof.Flow

variable {s t u : State}

/-! ### Jumps (41_flow.md R91, R93) -/

theorem onlyChanges_setPc (s : State) (w : Word) (its : List Item) : OnlyChanges s (s.setPc w) its :=
  fun it _ => StateItems.same_setPc s it w

/-- The encoding of `1nnn` decodes to it. -/
theorem decodeWord_jp (nnn : Addr12) : decodeWord (0x1#4 ++ nnn) = .jp nnn :=
  Scope.decodeWord_encode_of_pattern (i := .jp nnn) rfl

theorem exec_jp (nnn : Addr12) (s : State) : exec (.jp nnn) s = .next (s.setPc (zextAddr nnn)) := rfl

/-- Settles O33: the jump is a write of PC. -/
theorem jumpGoesToNnn : Obligations.JumpGoesToNnn := fun s nnn =>
  ⟨decodeWord_jp nnn, _, exec_jp nnn s, zextAddr_toNat nnn, onlyChanges_setPc s _ []⟩

/-- Settles O34: the jump is a write of PC, and the sum is exact in 16 bits. -/
theorem jumpV0GoesToNnnPlusV0 : Obligations.JumpV0GoesToNnnPlusV0 := fun s nnn =>
  ⟨Scope.decodeWord_encode_of_pattern (i := .jpV0 nnn) rfl, s.setPc (zextAddr nnn + zextByte (s.getV 0)), rfl,
    zextAddr_add_zextByte_toNat nnn (s.getV 0), onlyChanges_setPc s _ []⟩

/-- The advance of PC leaves nothing behind when PC is set back. -/
theorem advance_setPc_pc (s : State) : s.advance.setPc s.pc = s := rfl

/-- Settles O41: the cycle advances PC, and the jump sets it back to the address it had. -/
theorem selfJumpLeavesTheStateUnchanged : Obligations.SelfJumpLeavesTheStateUnchanged := by
  intro s nnn hclear hfetch hpc
  have htarget : zextAddr nnn = s.pc := BitVec.eq_of_toNat_eq ((zextAddr_toNat nnn).trans hpc.symm)
  calc step s = exec (decodeWord (0x1#4 ++ nnn)) s.advance :=
        Cycle.step_of_fetch_eq_some (State.faulted_eq_false.2 hclear) hfetch
    _ = .next (s.advance.setPc (zextAddr nnn)) := by rw [decodeWord_jp, exec_jp]
    _ = .next s := by rw [htarget, advance_setPc_pc]

/-! ### The call and the return (41_flow.md R90, R92) -/

/-- A call with no free slot raises StackOverflow (60_exceptions.md R151). -/
theorem exec_call_of_push_eq_none (nnn : Addr12) (h : s.push = none) :
    exec (.call nnn) s = .next (s.raiseIn .stackOverflow (.call nnn)) := by
  simp [exec, execCall, h, orRaise_none]

/-- A return from an empty stack raises StackUnderflow (60_exceptions.md R152). -/
theorem exec_ret_of_pop_eq_none (h : s.pop = none) : exec .ret s = .next (s.raiseIn .stackUnderflow .ret) := by
  simp [exec, execRet, h, orRaise_none]

/-- A push, then a jump, changes the slot SP named, SP and PC. -/
theorem onlyChanges_push_setPc (h : s.push = some t) (hs : s.sp.val < 16) (w : Word) :
    OnlyChanges s (t.setPc w) [.slot ⟨s.sp.val, hs⟩, .sp] := by
  intro it hit
  obtain ⟨hslot, hsp⟩ : it ≠ .slot ⟨s.sp.val, hs⟩ ∧ it ≠ .sp := by simpa using hit
  have hother : it.isSlot s.sp.val = false := by
    cases it with
    | slot k => simpa [Item.isSlot, Fin.ext_iff] using hslot
    | _ => rfl
  exact StateItems.same_trans (StateItems.same_push h hother hsp) (StateItems.same_setPc t it w)

/-- A pop, then a jump, changes SP and PC. -/
theorem onlyChanges_pop_setPc {w : Word} (h : s.pop = some (w, t)) : OnlyChanges s (t.setPc w) [.sp] := fun it hit =>
  StateItems.same_trans (StateItems.same_pop h (by simpa using hit)) (StateItems.same_setPc t it w)

/-- Settles O35: the call is a push and a jump, and the push fails exactly when SP is 16. -/
theorem callPushesOrOverflows : Obligations.CallPushesOrOverflows := by
  refine ⟨fun nnn => Scope.decodeWord_encode_of_pattern (i := .call nnn) rfl, fun s nnn h => ?_, fun s nnn h => ?_⟩
  · have hpush := Cycle.push_of_lt h
    exact ⟨_, Cycle.exec_call_of_push nnn hpush, Vector.getElem_set_self _, rfl, zextAddr_toNat nnn,
      onlyChanges_push_setPc hpush h _⟩
  · exact exec_call_of_push_eq_none nnn (State.push_eq_none.2 h)

/-- Settles O36: the return is a pop and a jump, and the pop fails exactly when SP is 0. -/
theorem returnPopsOrUnderflows : Obligations.ReturnPopsOrUnderflows := by
  refine ⟨Scope.decodeWord_encode_of_pattern (i := .ret) rfl, fun s h => ?_, fun s h => ?_⟩
  · have hpop := Cycle.pop_of_pos h
    exact ⟨_, Cycle.exec_ret_of_pop hpop, Nat.sub_add_cancel h, rfl, onlyChanges_pop_setPc hpop⟩
  · exact exec_ret_of_pop_eq_none (State.pop_eq_none.2 h)

/-! ### Skips (41_flow.md R94 to R97) -/

/-- A skip adds 2 to PC when the condition holds, and changes nothing else. -/
theorem skipIf_spec (s : State) {c : Bool} {p : Prop} [Decidable p] (h : c = true ↔ p) :
    (s.skipIf c).pc = (if p then s.pc + 2 else s.pc) ∧ OnlyChanges s (s.skipIf c) [] :=
  ⟨by simp only [State.skipIf_eq, State.setPc_pc, h], fun it _ => StateItems.same_skipIf s it c⟩

/-- Settles O37: both are skips, on the tested equality and on its negation. -/
theorem immediateSkips : Obligations.ImmediateSkips :=
  ⟨fun s x nn => ⟨Scope.decodeWord_encode_of_pattern (i := .seVxNn x nn) rfl, _, rfl, skipIf_spec s beq_iff_eq⟩,
    fun s x nn => ⟨Scope.decodeWord_encode_of_pattern (i := .sneVxNn x nn) rfl, _, rfl, skipIf_spec s bne_iff_ne⟩⟩

/-- Settles O38: both are skips, on the tested equality and on its negation. -/
theorem registerSkips : Obligations.RegisterSkips :=
  ⟨fun s x y => ⟨Scope.decodeWord_encode_of_pattern (i := .seVxVy x y) rfl, _, rfl, skipIf_spec s beq_iff_eq⟩,
    fun s x y => ⟨Scope.decodeWord_encode_of_pattern (i := .sneVxVy x y) rfl, _, rfl, skipIf_spec s bne_iff_ne⟩⟩

theorem exec_skpVx_of_keyIndex {x : Reg} {k : Fin 16} (h : keyIndex (s.getV x) = some k) :
    exec (.skpVx x) s = .next (s.skipIf (s.keyDown k)) := by
  simp [exec, execSkpVx, h, orRaise_some]

theorem exec_sknpVx_of_keyIndex {x : Reg} {k : Fin 16} (h : keyIndex (s.getV x) = some k) :
    exec (.sknpVx x) s = .next (s.skipIf (!s.keyDown k)) := by
  simp [exec, execSknpVx, h, orRaise_some]

/-- Of a skip and the skip on the opposite condition exactly one skips. -/
theorem exactlyOne_skipIf_skips {c : Bool} {r r' : Result} (hr : r = .next (s.skipIf c)) (hr' : r' = .next (s.skipIf !c))
    (ht : r = .next t) (hu : r' = .next u) :
    (t.pc = s.pc + 2 ∧ u.pc = s.pc) ∨ (t.pc = s.pc ∧ u.pc = s.pc + 2) := by
  obtain rfl := Host.Outcome.next.inj (hr.symm.trans ht)
  obtain rfl := Host.Outcome.next.inj (hr'.symm.trans hu)
  cases c with
  | true => exact .inl ⟨rfl, rfl⟩
  | false => exact .inr ⟨rfl, rfl⟩

/-- Settles O39: the two of each pair skip on a condition and on its negation. -/
theorem exactlyOneOfOppositeSkipsSkips : Obligations.ExactlyOneOfOppositeSkipsSkips := by
  refine ⟨fun s t u x nn => exactlyOne_skipIf_skips (c := s.getV x == nn) rfl rfl,
    fun s t u x y => exactlyOne_skipIf_skips (c := s.getV x == s.getV y) rfl rfl, fun s t u x hx => ?_⟩
  have hk : keyIndex (s.getV x) = some ⟨(s.getV x).toNat, Nat.lt_succ_of_le hx⟩ := keyIndex_eq_some.2 rfl
  exact exactlyOne_skipIf_skips (exec_skpVx_of_keyIndex hk) (exec_sknpVx_of_keyIndex hk)

end Sys2Proof.Flow
end

section
/-! PROOFS. The family 42_alu.md: loads, `7xnn` and the bitwise instructions write V[x] (O21, O22); the sum, the
differences and the shifts write V[x] and then VF (O23 to O25). -/

open Sys2Proof Sys2Proof.Machine

namespace Sys2Proof.Alu

/-! ### One write to V[x] (42_alu.md R101 to R106) -/

theorem onlyChanges_setV (s : State) (x : Reg) (b : Byte) : OnlyChanges s (s.setV x b) [.v x] :=
  fun _ hit => StateItems.same_setV (List.ne_of_not_mem_cons hit) b

/-- A write to V[x] of a byte that meets `P` leaves such a byte there, and changes nothing else. -/
theorem setV_spec (s : State) (x : Reg) (P : Byte → Prop) {b : Byte} (h : P b) :
    P ((s.setV x b).getV x) ∧ (s.setV x b).pc = s.pc ∧ OnlyChanges s (s.setV x b) [.v x] :=
  ⟨(State.getV_setV_same s x b).symm ▸ h, rfl, onlyChanges_setV s x b⟩

/-- Settles O21: each is one write to V[x], and the sum of `7xnn` is taken modulo 256. -/
theorem loadsAndAddImmediateWriteVx : Obligations.LoadsAndAddImmediateWriteVx :=
  ⟨fun s x nn => ⟨Scope.decodeWord_encode_of_pattern (i := .ldVxNn x nn) rfl, _, rfl, setV_spec s x (· = nn) rfl⟩,
    fun s x nn => ⟨Scope.decodeWord_encode_of_pattern (i := .addVxNn x nn) rfl, _, rfl,
      setV_spec s x (·.toNat = ((s.getV x).toNat + nn.toNat) % 256) (BitVec.toNat_add _ _)⟩,
    fun s x y => ⟨Scope.decodeWord_encode_of_pattern (i := .ldVxVy x y) rfl, _, rfl,
      setV_spec s x (· = s.getV y) rfl⟩⟩

/-- Settles O22: each is one write to V[x], of the bitwise operation. -/
theorem logicIsBitwiseWithoutFlag : Obligations.LogicIsBitwiseWithoutFlag :=
  ⟨fun s x y => ⟨Scope.decodeWord_encode_of_pattern (i := .orVxVy x y) rfl, _, rfl,
      setV_spec s x (fun b => ∀ k, b.getLsbD k = ((s.getV x).getLsbD k || (s.getV y).getLsbD k))
        fun _ => BitVec.getLsbD_or⟩,
    fun s x y => ⟨Scope.decodeWord_encode_of_pattern (i := .andVxVy x y) rfl, _, rfl,
      setV_spec s x (fun b => ∀ k, b.getLsbD k = ((s.getV x).getLsbD k && (s.getV y).getLsbD k))
        fun _ => BitVec.getLsbD_and⟩,
    fun s x y => ⟨Scope.decodeWord_encode_of_pattern (i := .xorVxVy x y) rfl, _, rfl,
      setV_spec s x (fun b => ∀ k, b.getLsbD k = xor ((s.getV x).getLsbD k) ((s.getV y).getLsbD k))
        fun _ => BitVec.getLsbD_xor⟩⟩

/-! ### The result, then the flag (42_alu.md R100) -/

theorem onlyChanges_setResultFlag (s : State) (x : Reg) (b : Byte) (f : Bool) :
    OnlyChanges s (s.setResultFlag x b f) [.v x, .v 0xF] := fun it hit => by
  obtain ⟨hx, hf⟩ : it ≠ .v x ∧ it ≠ .v 0xF := by simpa using hit
  exact StateItems.same_setResultFlag hx hf b f

/-- The result stands in V[x] where the flag write does not reach it, and nothing but V[x] and VF changes. -/
theorem setResultFlag_spec (s : State) (x : Reg) {b : Byte} {f : Bool} {n : Nat} (h : b.toNat = n) :
    (x ≠ 0xF → ((s.setResultFlag x b f).getV x).toNat = n) ∧ (s.setResultFlag x b f).pc = s.pc ∧
      OnlyChanges s (s.setResultFlag x b f) [.v x, .v 0xF] :=
  ⟨fun hx => (congrArg BitVec.toNat (State.getV_setResultFlag_same s hx b f)).trans h, rfl,
    onlyChanges_setResultFlag s x b f⟩

theorem getV_regF_toNat_setResultFlag (s : State) (x : Reg) (b : Byte) (f : Bool) :
    ((s.setResultFlag x b f).getV 0xF).toNat = f.toNat := by
  rw [State.getV_setResultFlag_regF, flagByte_toNat]

/-! ### Sum and differences (42_alu.md R107, R108, R110) -/

theorem flagByte_carryFlag (a b : Byte) :
    flagByte (carryFlag a b) = if a.toNat + b.toNat > 255 then 1 else 0 := by
  simp [flagByte, carryFlag]

theorem flagByte_noBorrowFlag (a b : Byte) : flagByte (noBorrowFlag a b) = if a.toNat ≥ b.toNat then 1 else 0 := by
  simp [flagByte, noBorrowFlag]

/-- The difference of bytes, its minuend raised by 256 so that subtraction of naturals does not truncate. -/
theorem byte_sub_toNat (a b : Byte) : (a - b).toNat = (a.toNat + 256 - b.toNat) % 256 := by
  rw [BitVec.toNat_sub]
  omega

/-- Settles O23: the flag byte of the carry is written last. -/
theorem addWritesSumThenCarry : Obligations.AddWritesSumThenCarry := fun s x y =>
  ⟨Scope.decodeWord_encode_of_pattern (i := .addVxVy x y) rfl, _, rfl,
    (State.getV_setResultFlag_regF s x _ _).trans (flagByte_carryFlag _ _), setResultFlag_spec s x (BitVec.toNat_add _ _)⟩

/-- Settles O24: the flag byte of "no borrow" is written last. -/
theorem subtractWritesDifferenceThenNoBorrow : Obligations.SubtractWritesDifferenceThenNoBorrow :=
  ⟨fun s x y => ⟨Scope.decodeWord_encode_of_pattern (i := .subVxVy x y) rfl, _, rfl,
      (State.getV_setResultFlag_regF s x _ _).trans (flagByte_noBorrowFlag _ _),
      setResultFlag_spec s x (byte_sub_toNat _ _)⟩,
    fun s x y => ⟨Scope.decodeWord_encode_of_pattern (i := .subnVxVy x y) rfl, _, rfl,
      (State.getV_setResultFlag_regF s x _ _).trans (flagByte_noBorrowFlag _ _),
      setResultFlag_spec s x (byte_sub_toNat _ _)⟩⟩

/-! ### Shifts (42_alu.md R109, R111) -/

/-- Old bit 0 is the remainder by 2. -/
theorem shiftRightFlag_toNat (a : Byte) : (shiftRightFlag a).toNat = a.toNat % 2 := by
  rw [shiftRightFlag, BitVec.getLsbD, Nat.toNat_testBit, pow_zero, Nat.div_one]

/-- Old bit 7 is the quotient by 128, for a byte is less than 256. -/
theorem shiftLeftFlag_toNat (a : Byte) : (shiftLeftFlag a).toNat = a.toNat / 128 := by
  rw [shiftLeftFlag, BitVec.getLsbD, Nat.toNat_testBit]
  have := a.isLt
  omega

theorem byte_shiftRight_one_toNat (a : Byte) : (a >>> 1).toNat = a.toNat / 2 := by
  rw [BitVec.toNat_ushiftRight, Nat.shiftRight_one]

theorem byte_shiftLeft_one_toNat (a : Byte) : (a <<< 1).toNat = 2 * a.toNat % 256 := by
  rw [BitVec.toNat_shiftLeft, Nat.shiftLeft_eq, pow_one, Nat.mul_comm]

/-- Settles O25: the flag byte of the bit shifted out is written last. -/
theorem shiftsByOneInPlace : Obligations.ShiftsByOneInPlace :=
  ⟨fun s x y => ⟨Scope.decodeWord_encode_of_pattern (i := .shrVx x y) rfl, _, rfl,
      (getV_regF_toNat_setResultFlag s x _ _).trans (shiftRightFlag_toNat _),
      setResultFlag_spec s x (byte_shiftRight_one_toNat _)⟩,
    fun s x y => ⟨Scope.decodeWord_encode_of_pattern (i := .shlVx x y) rfl, _, rfl,
      (getV_regF_toNat_setResultFlag s x _ _).trans (shiftLeftFlag_toNat _),
      setResultFlag_spec s x (byte_shiftLeft_one_toNat _)⟩⟩

end Sys2Proof.Alu
end

section
/-! PROOFS. The family 43_index_memory.md: the writers of I (O42, O43), the stores `Fx33` and `Fx55` (O44, O45), the load
`Fx65` (O46), and the load after the store (O47). -/

open Sys2Proof Sys2Proof.Machine

namespace Sys2Proof.IndexMemory

variable {s t : State}

/-! ### One write to I (43_index_memory.md R120 to R122) -/

/-- A write of a word whose value is `n` leaves `n` in I, and changes nothing else. -/
theorem setI_spec (s : State) {w : Word} {n : Nat} (h : w.toNat = n) :
    (s.setI w).i.toNat = n ∧ (s.setI w).pc = s.pc ∧ OnlyChanges s (s.setI w) [.i] :=
  ⟨h, rfl, fun _ hit => StateItems.same_setI (List.ne_of_not_mem_cons hit) w⟩

/-- Settles O42: the instruction is one write to I, of the immediate zero-extended. -/
theorem loadIndexImmediate : Obligations.LoadIndexImmediate := fun s nnn =>
  ⟨Scope.decodeWord_encode_of_pattern (i := .ldINnn nnn) rfl, _, rfl, setI_spec s (zextAddr_toNat nnn)⟩

theorem add_zextByte_toNat (w : Word) (b : Byte) : (w + zextByte b).toNat = (w.toNat + b.toNat) % 65536 := by
  rw [BitVec.toNat_add, zextByte_toNat]

/-- The address of a glyph is exact in 16 bits, for every byte (43_index_memory.md R122). -/
theorem glyphAddr_toNat (b : Byte) : (BitVec.ofNat 16 (Config.fontBase + 5 * b.toNat)).toNat = 0x050 + 5 * b.toNat := by
  have hb := b.isLt
  have hlt : 0x050 + 5 * b.toNat < 2 ^ 16 := by omega
  exact (BitVec.toNat_ofNat _ _).trans (Nat.mod_eq_of_lt hlt)

/-- Settles O43: each is one write to I, of a sum taken modulo 65536 and of one that is below it. -/
theorem indexArithmetic : Obligations.IndexArithmetic :=
  ⟨fun s x => ⟨Scope.decodeWord_encode_of_pattern (i := .addIVx x) rfl, _, rfl, setI_spec s (add_zextByte_toNat s.i _)⟩,
    fun s x => ⟨Scope.decodeWord_encode_of_pattern (i := .ldFVx x) rfl, _, rfl, setI_spec s (glyphAddr_toNat _)⟩⟩

/-! ### The range of an access through I (43_index_memory.md R126) -/

theorem inMemory_of_beyond {base n : Nat} (h : base + n > 0xFFF) : inMemory base (n + 1) = false := by
  rw [Bool.eq_false_iff, ne_eq, inMemory_iff, Config.memSize]
  omega

/-- A store whose last byte is above 0xFFF raises DataOutOfRange. -/
theorem store_of_beyond {i : Instr} {xs : List Byte} {n : Nat} (hlen : xs.length = n + 1) (h : s.i.toNat + n > 0xFFF) :
    orRaise s .dataOutOfRange i (s.storeRun (s.effAddr 0) xs) = .next (s.raiseIn .dataOutOfRange i) := by
  rw [State.storeRun_eq_none.2 (hlen ▸ inMemory_of_beyond h), orRaise_none]

/-- A load whose last byte is above 0xFFF raises DataOutOfRange. -/
theorem load_of_beyond {i : Instr} {n : Nat} (g : List Byte → State) (h : s.i.toNat + n > 0xFFF) :
    orRaise s .dataOutOfRange i ((s.loadRun (s.effAddr 0) (n + 1)).map g) = .next (s.raiseIn .dataOutOfRange i) := by
  rw [State.effAddr_zero, State.loadRun_eq_none.2 (inMemory_of_beyond h), Option.map_none, orRaise_none]

/-! ### Stores (43_index_memory.md R123, R124) -/

/-- A store, done or faulted, leaves PC and I. -/
theorem store_leaves_pc_i {f : Fault} {i : Instr} {base : Nat} {xs : List Byte}
    (h : orRaise s f i (s.storeRun base xs) = .next t) : t.pc = s.pc ∧ t.i = s.i := by
  rcases orRaise_eq_next h with hstore | ⟨-, rfl⟩
  · obtain ⟨-, rfl⟩ := State.storeRun_eq_some hstore
    exact ⟨rfl, rfl⟩
  · exact ⟨rfl, rfl⟩

/-- Settles O45: the stored registers read back, and the last address decides the fault. -/
theorem storeWritesRegistersToMemory : Obligations.StoreWritesRegistersToMemory := by
  refine ⟨fun s x hm h => ?_, fun s x h => store_of_beyond (length_regsUpTo s x) h⟩
  obtain ⟨t, hexec, hread⟩ := MemoryContents.readByte_of_exec_ldMemVx hm h
  exact ⟨t, hexec, hread, store_leaves_pc_i hexec⟩

/-- The decimal digits of a byte. -/
theorem bcdDigits_spec (b : Byte) : ∃ h d o, bcdDigits b = [h, d, o] ∧
    b.toNat = 100 * h.toNat + 10 * d.toNat + o.toNat ∧ h.toNat ≤ 2 ∧ d.toNat ≤ 9 ∧ o.toNat ≤ 9 := by
  have hb := b.isLt
  refine ⟨_, _, _, rfl, ?_⟩
  simp only [BitVec.toNat_ofNat]
  omega

/-- `Fx33` stores the bytes of the digits from I on. -/
theorem readByte_of_exec_ldBVx {x : Reg} {h d o : Byte} (hm : Memory.wf s.font s.mem) (hi : s.i.toNat + 2 ≤ 0xFFF)
    (hbcd : bcdDigits (s.getV x) = [h, d, o]) :
    ∃ t, exec (.ldBVx x) s = .next t ∧ t.readByte s.i.toNat = some h ∧ t.readByte (s.i.toNat + 1) = some d ∧
      t.readByte (s.i.toNat + 2) = some o := by
  obtain ⟨t, ht⟩ := MemoryContents.storeRun_of_inMemory (s := s) (base := s.effAddr 0) (xs := [h, d, o])
    (Nat.succ_le_succ hi)
  have hread {k : Nat} (hk : k < 3) : t.readByte (s.i.toNat + k) = some [h, d, o][k] :=
    State.readByte_storeRun_inside hm ht hk
  refine ⟨t, ?_, hread (k := 0) (by decide), hread (k := 1) (by decide), hread (k := 2) (by decide)⟩
  rw [← hbcd] at ht
  exact congrArg (orRaise s .dataOutOfRange (.ldBVx x)) ht

/-- Settles O44: the stored digits read back, and the last address decides the fault. -/
theorem bcdStoresThreeDigits : Obligations.BcdStoresThreeDigits := by
  refine ⟨fun s x hm hi => ?_, fun s x hi => store_of_beyond (length_bcdDigits _) hi⟩
  obtain ⟨h, d, o, hbcd, hval, hh, hd, ho⟩ := bcdDigits_spec (s.getV x)
  obtain ⟨t, hexec, hrh, hrd, hro⟩ := readByte_of_exec_ldBVx hm hi hbcd
  exact ⟨t, h, d, o, hexec, hrh, hrd, hro, hval, hh, hd, ho, store_leaves_pc_i hexec⟩

/-! ### The load (43_index_memory.md R125) -/

theorem loadRun_of_inMemory {base len : Nat} (h : base + len ≤ Config.memSize) :
    s.loadRun base len = some (Memory.readRun s.font s.mem base len) :=
  if_pos (inMemory_iff.2 (.inr h))

theorem exec_ldVxMem_of_loadRun {x : Reg} {bs : List Byte} (h : s.loadRun (s.effAddr 0) (countUpTo x) = some bs) :
    exec (.ldVxMem x) s = .next (s.loadRegs 0 bs) := by
  simp only [exec, execLdVxMem, h, Option.map_some, orRaise_some]

/-- A run of `x + 1` bytes, loaded from register 0 on, leaves byte `k` in V[k]. -/
theorem getV_loadRegs_readRun (m : Memory) (base : Nat) (x : Reg) {k : Nat} (hk : k ≤ x.toNat) :
    (s.loadRegs 0 (Memory.readRun s.font m base (countUpTo x))).getV (BitVec.ofNat 4 k) =
      Memory.read s.font m (base + k) := by
  have hx := x.isLt
  have hreg : (BitVec.ofNat 4 k).toNat = k := (BitVec.toNat_ofNat _ _).trans (Nat.mod_eq_of_lt (by omega))
  have hlen : (Memory.readRun s.font m base (countUpTo x)).length = x.toNat + 1 := Memory.length_readRun _ _ _
  rw [State.getV_loadRegs _ _ s 0 (by omega), dif_pos (by omega), Memory.getElem_readRun, hreg, Nat.sub_zero]

/-- `Fx65` loads V[0] to V[x] from I on, in every memory. -/
theorem getV_of_exec_ldVxMem {x : Reg} (h : s.i.toNat + x.toNat ≤ 0xFFF) :
    ∃ t, exec (.ldVxMem x) s = .next t ∧
      (∀ k ≤ x.toNat, s.readByte (s.i.toNat + k) = some (t.getV (BitVec.ofNat 4 k))) ∧ t.pc = s.pc := by
  have hload := loadRun_of_inMemory (s := s) (base := s.effAddr 0) (len := countUpTo x) (Nat.succ_le_succ h)
  refine ⟨_, exec_ldVxMem_of_loadRun hload, fun k hk => ?_, (StateItems.loadRegs_fault_pc s _ 0).2⟩
  rw [getV_loadRegs_readRun _ _ x hk]
  exact State.readByte_of_lt s (by rw [Config.memSize]; omega)

/-- Settles O46: the loaded bytes are in the registers, the frame keeps the others, and the last address decides the
fault. -/
theorem loadReadsRegistersFromMemory : Obligations.LoadReadsRegistersFromMemory := by
  refine ⟨fun s x h => ?_, fun s x h => load_of_beyond (s.loadRegs 0) h⟩
  obtain ⟨t, hexec, hread, hpc⟩ := getV_of_exec_ldVxMem h
  refine ⟨t, hexec, hread, fun r hr => ?_, hpc, StateItems.keeps_exec (it := .i) _ rfl t hexec⟩
  exact StateItems.keeps_exec (it := .v r) _ (by simpa [mayWrite, Item.isRegUpTo] using hr) t hexec

/-- Settles O47: byte `k` from I is V[k] of the storing state, and the load puts it in V[k]. -/
theorem loadAfterStoreRestoresRegisters : Obligations.LoadAfterStoreRestoresRegisters := by
  intro s x hm h
  obtain ⟨t, hstore, hstored⟩ := MemoryContents.readByte_of_exec_ldMemVx hm h
  refine ⟨t, hstore, fun u hfont hmem hi => ?_⟩
  obtain ⟨w, hload, hloaded, -⟩ := getV_of_exec_ldVxMem (s := u) (x := x) (hi ▸ h)
  refine ⟨w, hload, fun k hk => Option.some.inj ?_⟩
  calc some (w.getV (BitVec.ofNat 4 k)) = u.readByte (u.i.toNat + k) := (hloaded k hk).symm
    _ = t.readByte (s.i.toNat + k) := by rw [hi, State.readByte_congr hfont hmem]
    _ = some (s.getV (BitVec.ofNat 4 k)) := hstored k hk

end Sys2Proof.IndexMemory
end

section
/-! PROOFS. The family 44_display.md: the clear (O51), one draw (O52), and the same draw twice (O53). -/

open Sys2Proof Sys2Proof.Machine

namespace Sys2Proof.Drawing

variable {s t : State} {x y : Reg} {n : BitVec 4}

/-- Settles O51: the clear puts the blank display in place of DISP and leaves every other item. -/
theorem clearDarkensEveryPixel : Obligations.ClearDarkensEveryPixel :=
  ⟨Scope.decodeWord_encode_of_pattern (i := .cls) rfl, fun _ =>
    ⟨_, rfl, Display.pixel_blank, rfl, fun _ hit => StateItems.same_withDisp hit _⟩⟩

/-! ### The sprite of a draw (44_display.md R131) -/

/-- The row bytes that `Dxyn` reads: those of the rows on the screen. -/
def spriteBytes (s : State) (y : Reg) (n : BitVec 4) : List Byte :=
  Memory.readRun s.font s.mem (s.effAddr 0) (spriteRows (s.getV y).toNat n)

/-- The sprite of `Dxyn` has a 1 at a pixel of the screen. -/
def spriteAt (s : State) (x y : Reg) (n : BitVec 4) (r : Fin 32) (c : Fin 64) : Bool :=
  decide ((s.getV y).toNat ≤ r.val ∧ r.val - (s.getV y).toNat < (spriteBytes s y n).length) &&
    rowBitAt (s.getV x).toNat ((spriteBytes s y n).getD (r.val - (s.getV y).toNat) 0) c.val

/-- The display and the collision of `Dxyn`, where every byte it reads is in memory. -/
def drawing (s : State) (x y : Reg) (n : BitVec 4) : Display × Bool :=
  drawRows (s.getV x).toNat (s.getV y).toNat (spriteBytes s y n) (s.disp, false)

/-- The state after `Dxyn`, where every byte it reads is in memory. -/
def drawn (s : State) (x y : Reg) (n : BitVec 4) : State := s.setDrawn (drawing s x y n)

theorem pixel_drawn (s : State) (x y : Reg) (n : BitVec 4) (r : Fin 32) (c : Fin 64) :
    (drawn s x y n).pixel r c = xor (s.pixel r c) (spriteAt s x y n r c) :=
  drawRows_pixel _ r c _ _ _

theorem pixel_drawn_ne_iff (s : State) (x y : Reg) (n : BitVec 4) (r : Fin 32) (c : Fin 64) :
    (drawn s x y n).pixel r c ≠ s.pixel r c ↔ spriteAt s x y n r c = true := by
  rw [pixel_drawn]
  cases spriteAt s x y n r c <;> simp

/-- The collision is a lit pixel under a 1 of the sprite. -/
theorem drawing_coll_iff (s : State) (x y : Reg) (n : BitVec 4) :
    (drawing s x y n).2 = true ↔ ∃ r c, spriteAt s x y n r c = true ∧ s.pixel r c = true := by
  simp [drawing, drawRows_coll, spriteAt, and_assoc, State.pixel_eq]

theorem flag_drawn_eq_one_iff (s : State) (x y : Reg) (n : BitVec 4) :
    (drawn s x y n).getV 0xF = 1 ↔ ∃ r c, spriteAt s x y n r c = true ∧ s.pixel r c = true := by
  rw [drawn, StateItems.getV_setDrawn_regF, flagByte_eq_one, drawing_coll_iff]

theorem flag_drawn_eq_zero_iff (s : State) (x y : Reg) (n : BitVec 4) :
    (drawn s x y n).getV 0xF = 0 ↔ ¬ ∃ r c, spriteAt s x y n r c = true ∧ s.pixel r c = true := by
  rw [drawn, StateItems.getV_setDrawn_regF, flagByte_eq_zero, ← drawing_coll_iff, Bool.not_eq_true]

/-! ### The bytes a draw reads (44_display.md R131) -/

theorem lt_spriteRows_iff {vy i : Nat} : i < spriteRows vy n ↔ i < n.toNat ∧ vy + i < 32 := by
  unfold spriteRows
  split <;> omega

theorem inMemory_iff_forall {base len : Nat} : inMemory base len = true ↔ ∀ i < len, base + i ≤ 0xFFF := by
  rw [inMemory_iff, Config.memSize]
  refine ⟨fun h i hi => by omega, fun h => ?_⟩
  rcases Nat.eq_zero_or_pos len with h0 | hpos
  · exact .inl h0
  · have := h (len - 1) (by omega)
    omega

/-- `Dxyn` finds every byte it reads in memory exactly when the rows on the screen lie at 0xFFF or below. -/
theorem inMemory_spriteRows_iff {base vy : Nat} :
    inMemory base (spriteRows vy n) = true ↔ ∀ i, i < n.toNat → vy + i < 32 → base + i ≤ 0xFFF := by
  simp only [inMemory_iff_forall, lt_spriteRows_iff, and_imp]

/-- A draw draws when its rows are in memory, and else raises DataOutOfRange. -/
theorem exec_drw (s : State) (x y : Reg) (n : BitVec 4) :
    exec (.drw x y n) s = if inMemory (s.effAddr 0) (spriteRows (s.getV y).toNat n) = true then .next (drawn s x y n)
      else .next (s.raiseIn .dataOutOfRange (.drw x y n)) := by
  simp only [exec, execDrw, State.loadRun]
  split <;> rfl

/-- A draw that leaves no fault has drawn. -/
theorem drawn_of_exec_drw (h : exec (.drw x y n) s = .next t) (hf : t.fault.cause = none) :
    inMemory (s.effAddr 0) (spriteRows (s.getV y).toNat n) = true ∧ t = drawn s x y n := by
  rw [exec_drw] at h
  split at h <;> obtain rfl := Host.Outcome.next.inj h
  · exact ⟨‹_›, rfl⟩
  · simp [State.raiseIn_eq] at hf

/-! ### The sprite's bits in memory (44_display.md R133) -/

theorem rowBitAt_iff {vx : Nat} {b : Byte} {c : Nat} :
    rowBitAt vx b c = true ↔ ∃ j < 8, c = vx + j ∧ b.getLsbD (7 - j) = true := by
  simp only [rowBitAt, spriteBit, Bool.and_eq_true, decide_eq_true_eq]
  constructor
  · rintro ⟨hc, hb⟩
    exact ⟨c - vx, by omega, by omega, hb⟩
  · rintro ⟨j, hj, rfl, hb⟩
    exact ⟨by omega, by rwa [Nat.add_sub_cancel_left]⟩

/-- Byte `i` of the sprite is the byte of memory at I + i. -/
theorem readByte_eq_spriteBytes {i : Nat} (hin : inMemory (s.effAddr 0) (spriteRows (s.getV y).toNat n) = true)
    (hi : i < (spriteBytes s y n).length) : s.readByte (s.i.toNat + i) = some ((spriteBytes s y n).getD i 0) := by
  have hlt : i < spriteRows (s.getV y).toNat n := by rwa [spriteBytes, Memory.length_readRun] at hi
  have hle : s.i.toNat + i ≤ 0xFFF := inMemory_iff_forall.1 hin i hlt
  rw [State.readByte_of_lt s (Nat.lt_succ_of_le hle), List.getD_eq_getElem _ _ hi]
  exact congrArg some (Memory.getElem_readRun s.mem _ _ i hi).symm

/-- The sprite's 1 at a pixel is bit 7 - j of the byte at I + i, for the pixel in row V[y] + i and column V[x] + j. -/
theorem spriteAt_iff (hin : inMemory (s.effAddr 0) (spriteRows (s.getV y).toNat n) = true) (r : Fin 32) (c : Fin 64) :
    spriteAt s x y n r c = true ↔
      ∃ i j b, i < n.toNat ∧ j < 8 ∧ r.val = (s.getV y).toNat + i ∧ c.val = (s.getV x).toNat + j ∧
        s.readByte (s.i.toNat + i) = some b ∧ b.getLsbD (7 - j) = true := by
  have hlen {i : Nat} : i < (spriteBytes s y n).length ↔ i < n.toNat ∧ (s.getV y).toNat + i < 32 := by
    rw [spriteBytes, Memory.length_readRun, lt_spriteRows_iff]
  simp only [spriteAt, Bool.and_eq_true, decide_eq_true_eq, rowBitAt_iff]
  constructor
  · rintro ⟨⟨hr, hi⟩, j, hj, hc, hb⟩
    exact ⟨_, j, _, (hlen.1 hi).1, hj, (Nat.add_sub_cancel' hr).symm, hc, readByte_eq_spriteBytes hin hi, hb⟩
  · rintro ⟨i, j, b, hi, hj, hr, hc, hread, hb⟩
    have hi' : i < (spriteBytes s y n).length := hlen.2 ⟨hi, hr ▸ r.isLt⟩
    obtain rfl : (spriteBytes s y n).getD i 0 = b :=
      Option.some.inj ((readByte_eq_spriteBytes hin hi').symm.trans hread)
    rw [hr, Nat.add_sub_cancel_left]
    exact ⟨⟨Nat.le_add_right _ _, hi'⟩, j, hj, hc, hb⟩

/-- Settles O52: a draw toggles the pixels of the sprite, whose bits are those of memory, and its collision is a lit
pixel of the sprite; a row beyond memory raises DataOutOfRange. -/
theorem drawTogglesTheSpritesPixels : Obligations.DrawTogglesTheSpritesPixels := by
  refine ⟨fun s x y n h => ?_, fun s x y n i hn hy hi => ?_⟩
  · have hin := inMemory_spriteRows_iff (base := s.effAddr 0).2 h
    refine ⟨drawn s x y n, (exec_drw s x y n).trans (if_pos hin), fun r c => ?_, ?_, rfl, rfl⟩
    · rw [pixel_drawn_ne_iff, spriteAt_iff hin]
    · simp only [pixel_drawn_ne_iff, flag_drawn_eq_one_iff, flag_drawn_eq_zero_iff, and_self]
      exact Classical.em _
  · have hout : ¬inMemory (s.effAddr 0) (spriteRows (s.getV y).toNat n) = true := fun hin =>
      Nat.not_le.2 hi (inMemory_spriteRows_iff.1 hin i hn hy)
    exact (exec_drw s x y n).trans (if_neg hout)

/-! ### The same draw twice (44_display.md R132 item 5) -/

/-- The state in which `Dxyn` is drawn again: the registers are those of the first draw, which V[15] may be one of. -/
def redraw (s : State) (x y : Reg) (n : BitVec 4) : State := { drawn s x y n with v := s.v }

/-- A draw changes neither I nor memory, so that the second draw has the sprite of the first. -/
theorem spriteAt_redraw (s : State) (x y : Reg) (n : BitVec 4) : spriteAt (redraw s x y n) x y n = spriteAt s x y n :=
  rfl

theorem pixel_redraw (s : State) (x y : Reg) (n : BitVec 4) (r : Fin 32) (c : Fin 64) :
    (redraw s x y n).pixel r c = (drawn s x y n).pixel r c := rfl

theorem pixel_drawn_redraw (s : State) (x y : Reg) (n : BitVec 4) (r : Fin 32) (c : Fin 64) :
    (drawn (redraw s x y n) x y n).pixel r c = s.pixel r c := by
  rw [pixel_drawn, spriteAt_redraw, pixel_redraw, pixel_drawn, Bool.xor_assoc, Bool.xor_self, Bool.xor_false]

/-- The second draw meets exactly the pixels that the first one lit. -/
theorem spriteAt_and_pixel_drawn_iff (s : State) (x y : Reg) (n : BitVec 4) (r : Fin 32) (c : Fin 64) :
    spriteAt s x y n r c = true ∧ (drawn s x y n).pixel r c = true ↔
      s.pixel r c = false ∧ (drawn s x y n).pixel r c = true := by
  rw [pixel_drawn]
  cases spriteAt s x y n r c <;> simp

theorem flag_drawn_redraw_eq_one_iff (s : State) (x y : Reg) (n : BitVec 4) :
    (drawn (redraw s x y n) x y n).getV 0xF = 1 ↔
      ∃ r c, s.pixel r c = false ∧ (drawn s x y n).pixel r c = true := by
  simp only [flag_drawn_eq_one_iff, spriteAt_redraw, pixel_redraw, spriteAt_and_pixel_drawn_iff]

/-- After a first draw that met no lit pixel, a pixel is lit by it exactly when it changed. -/
theorem pixel_lit_iff_ne_of_flag_zero (hv : (drawn s x y n).getV 0xF = 0) (r : Fin 32) (c : Fin 64) :
    s.pixel r c = false ∧ (drawn s x y n).pixel r c = true ↔ (drawn s x y n).pixel r c ≠ s.pixel r c := by
  rw [pixel_drawn_ne_iff, ← spriteAt_and_pixel_drawn_iff, and_iff_left_iff_imp]
  intro hsprite
  have hdark : s.pixel r c = false := Bool.eq_false_iff.2 fun hlit =>
    (flag_drawn_eq_zero_iff s x y n).1 hv ⟨r, c, hsprite, hlit⟩
  rw [pixel_drawn, hsprite, hdark, Bool.false_xor]

/-- Settles O53: the second draw has the same sprite, so that it toggles the same pixels and meets the pixels that the
first draw lit. -/
theorem drawingTwiceRestoresTheDisplay : Obligations.DrawingTwiceRestoresTheDisplay := by
  intro s t x y n _ h hf
  obtain ⟨hin, rfl⟩ := drawn_of_exec_drw h hf
  have hflag := flag_drawn_redraw_eq_one_iff s x y n
  refine ⟨_, (exec_drw (redraw s x y n) x y n).trans (if_pos hin), pixel_drawn_redraw s x y n, hflag, fun hv => ?_⟩
  simpa only [pixel_lit_iff_ne_of_flag_zero hv] using hflag

end Sys2Proof.Drawing
end

section
/-! PROOFS. The family 45_keys_timers.md: the key skips (O54), the key wait (O55) and the timer moves (O56). -/

open Sys2Proof Sys2Proof.Machine

namespace Sys2Proof.KeysTimers

variable {s : State}

/-! ### The key skips (45_keys_timers.md R140, R141) -/

/-- `Ex9E` with a key number above 15 raises KeyIndexOutOfRange (60_exceptions.md R158). -/
theorem exec_skpVx_of_keyIndex_eq_none {x : Reg} (h : keyIndex (s.getV x) = none) :
    exec (.skpVx x) s = .next (s.raiseIn .keyIndexOutOfRange (.skpVx x)) := by
  simp [exec, execSkpVx, h, orRaise_none]

/-- `ExA1` with a key number above 15 raises KeyIndexOutOfRange (60_exceptions.md R158). -/
theorem exec_sknpVx_of_keyIndex_eq_none {x : Reg} (h : keyIndex (s.getV x) = none) :
    exec (.sknpVx x) s = .next (s.raiseIn .keyIndexOutOfRange (.sknpVx x)) := by
  simp [exec, execSknpVx, h, orRaise_none]

/-- A skip on the opposite condition adds 2 to PC when the condition fails, and changes nothing else. -/
theorem skipIf_not_spec (s : State) (c : Bool) :
    (s.skipIf !c).pc = (if c = true then s.pc else s.pc + 2) ∧ OnlyChanges s (s.skipIf !c) [] := by
  have h : (!c) = true ↔ ¬c = true := by rw [Bool.not_eq_true', Bool.not_eq_true]
  simpa only [ite_not] using Flow.skipIf_spec s h

/-- Settles O54: both are skips, on the level of the key V[x] names and on its negation, and V[x] names no key exactly
when it is above 15. -/
theorem keySkipsTestTheLevel : Obligations.KeySkipsTestTheLevel := by
  refine ⟨fun s x k hk => ?_, fun s x k hk => ?_, fun s x hx => ?_⟩
  · exact ⟨_, Flow.exec_skpVx_of_keyIndex (keyIndex_eq_some.2 hk), Flow.skipIf_spec s Iff.rfl⟩
  · exact ⟨_, Flow.exec_sknpVx_of_keyIndex (keyIndex_eq_some.2 hk), skipIf_not_spec s (s.keyDown k)⟩
  · have hnone := keyIndex_eq_none.2 hx
    exact ⟨exec_skpVx_of_keyIndex_eq_none hnone, exec_sknpVx_of_keyIndex_eq_none hnone⟩

/-! ### The key wait (45_keys_timers.md R142) -/

/-- A key that is down, with every lower one up, is the one the scan finds. -/
theorem firstKey_eq_some_of_least {k : Fin 16} (hk : s.keyDown k = true) (hlt : ∀ j < k, s.keyDown j = false) :
    s.firstKey = some k := by
  cases h : s.firstKey with
  | none => exact absurd hk (Bool.eq_false_iff.1 (State.firstKey_eq_none.1 h k))
  | some m =>
    obtain ⟨hm, hltm⟩ := State.firstKey_eq_some h
    have hkm : ¬k < m := fun hl => Bool.eq_false_iff.1 (hltm k hl) hk
    have hmk : ¬m < k := fun hl => Bool.eq_false_iff.1 (hlt m hl) hm
    exact congrArg some (le_antisymm (not_lt.1 hkm) (not_lt.1 hmk))

theorem exec_ldVxK_of_firstKey_eq_some (x : Reg) {k : Fin 16} (h : s.firstKey = some k) :
    exec (.ldVxK x) s = .next (s.setV x (BitVec.ofNat 8 k.val)) := by
  simp [exec, execLdVxK, h]

theorem exec_ldVxK_of_firstKey_eq_none (x : Reg) (h : s.firstKey = none) :
    exec (.ldVxK x) s = .next (s.setPc (s.pc - 2)) := by
  simp [exec, execLdVxK, h]

/-- A key number is exact in a byte. -/
theorem byte_ofKey_toNat (k : Fin 16) : (BitVec.ofNat 8 k.val).toNat = k.val := by
  have hlt : k.val < 2 ^ 8 := by omega
  exact (BitVec.toNat_ofNat _ _).trans (Nat.mod_eq_of_lt hlt)

/-- Settles O55: the wait is one write to V[x], of the key the scan finds, or a write of PC when it finds none. -/
theorem keyWaitTakesTheLeastKey : Obligations.KeyWaitTakesTheLeastKey := by
  refine ⟨fun x => Scope.decodeWord_encode_of_pattern (i := .ldVxK x) rfl, fun s x k hk hlt => ?_, fun s x hup => ?_⟩
  · have hfirst := firstKey_eq_some_of_least hk hlt
    exact ⟨_, exec_ldVxK_of_firstKey_eq_some x hfirst, Alu.setV_spec s x (·.toNat = k.val) (byte_ofKey_toNat k)⟩
  · have hfirst := State.firstKey_eq_none.2 hup
    exact ⟨_, exec_ldVxK_of_firstKey_eq_none x hfirst, rfl, Flow.onlyChanges_setPc s _ []⟩

/-! ### The timer moves (45_keys_timers.md R143 to R145) -/

theorem onlyChanges_setDt (s : State) (b : Byte) : OnlyChanges s (s.setDt b) [.dt] :=
  fun _ hit => StateItems.same_setDt (List.ne_of_not_mem_cons hit) b

theorem onlyChanges_setSt (s : State) (b : Byte) : OnlyChanges s (s.setSt b) [.st] :=
  fun _ hit => StateItems.same_setSt (List.ne_of_not_mem_cons hit) b

/-- The sound output is on exactly when ST is not 0 (60_exceptions.md R167). -/
theorem soundOn_iff (s : State) : s.soundOn = true ↔ s.st ≠ 0 := bne_iff_ne

/-- Settles O56: each is one write, to V[x], to DT or to ST, and the sound output reads ST. -/
theorem timerMoves : Obligations.TimerMoves :=
  ⟨fun s x => ⟨Scope.decodeWord_encode_of_pattern (i := .ldVxDt x) rfl, _, rfl, Alu.setV_spec s x (· = s.dt) rfl⟩,
    fun s x => ⟨Scope.decodeWord_encode_of_pattern (i := .ldDtVx x) rfl, _, rfl, rfl, rfl,
      onlyChanges_setDt s (s.getV x)⟩,
    fun s x => ⟨Scope.decodeWord_encode_of_pattern (i := .ldStVx x) rfl, _, rfl, rfl,
      soundOn_iff (s.setSt (s.getV x)), rfl, onlyChanges_setSt s (s.getV x)⟩⟩

end Sys2Proof.KeysTimers
end

section
/-! PROOFS. The family 60_exceptions.md: an instruction and a cycle fault on their conditions only (O11, O10), what a
faulted state does (O9), and the tick of the timers (O57, O58). -/

open Sys2Proof Sys2Proof.Machine

namespace Sys2Proof.Exceptions

variable {s t : State} {i : Instr}

/-! ### The execution of an instruction (60_exceptions.md R150 to R158) -/

/-- The answer leaves FAULT alone, where no fault condition of the instruction holds, or is the precise fault whose
condition is the one that holds. -/
def FaultsOnCondition (i : Instr) (s : State) (r : Result) : Prop :=
  (∃ t, r = .next t ∧ t.fault = s.fault ∧ ∀ f, ¬faultCondition i s f) ∨
  ∃ f, r = .next (s.raiseIn f i) ∧ ∀ g, faultCondition i s g ↔ g = f

/-- An instruction without a row in R150. -/
theorem faultsOnCondition_next (hfault : t.fault = s.fault) (hc : ∀ f, ¬faultCondition i s f) :
    FaultsOnCondition i s (.next t) :=
  .inl ⟨t, rfl, hfault, hc⟩

/-- An instruction with a row in R150: its operation gives no state exactly when the row's condition `p` holds. -/
theorem faultsOnCondition_orRaise {f : Fault} {r : Option State} {p : Prop} (hrow : ∀ g, faultCondition i s g ↔ g = f ∧ p)
    (hnone : r = none ↔ p) (hsome : ∀ u, r = some u → u.fault = s.fault) : FaultsOnCondition i s (orRaise s f i r) := by
  cases r with
  | none =>
    have hp : p := hnone.1 rfl
    exact .inr ⟨f, rfl, fun g => (hrow g).trans (and_iff_left hp)⟩
  | some u =>
    have hp : ¬p := fun hp => Option.some_ne_none u (hnone.2 hp)
    exact .inl ⟨u, rfl, hsome u rfl, fun g hg => hp ((hrow g).1 hg).2⟩

/-- The range an instruction accesses ends above 0xFFF exactly when it does not lie inside MEM. -/
theorem accessesBeyondMemory_iff {len : Nat} (hlen : accessLen i s = some len) :
    accessesBeyondMemory i s ↔ inMemory (s.effAddr 0) len = false := by
  refine ⟨?_, Scope.accessesBeyondMemory_of_not_inMemory hlen⟩
  rintro ⟨len', hlen', hpos, hout⟩
  obtain rfl : len = len' := Option.some.inj (hlen.symm.trans hlen')
  refine Bool.eq_false_iff.2 fun hin => ?_
  have hle := Drawing.inMemory_iff_forall.1 hin (len - 1) (by omega)
  rw [State.effAddr_zero] at hle
  omega

theorem faultsOnCondition_call (nnn : Addr12) : FaultsOnCondition (.call nnn) s (execCall nnn s) := by
  refine faultsOnCondition_orRaise (fun _ => Iff.rfl) (Option.map_eq_none_iff.trans State.push_eq_none) fun u hu => ?_
  obtain ⟨t, hpush, rfl⟩ := Option.map_eq_some_iff.1 hu
  obtain ⟨-, rfl⟩ := State.push_eq_some hpush
  rfl

theorem faultsOnCondition_ret : FaultsOnCondition .ret s (execRet s) := by
  refine faultsOnCondition_orRaise (fun _ => Iff.rfl) (Option.map_eq_none_iff.trans State.pop_eq_none) fun u hu => ?_
  obtain ⟨⟨w, t⟩, hpop, rfl⟩ := Option.map_eq_some_iff.1 hu
  obtain ⟨-, -, rfl⟩ := State.pop_eq_some hpop
  rfl

/-- A skip on the key V[x] names. -/
theorem faultsOnCondition_keySkip {x : Reg} (c : Fin 16 → Bool)
    (hrow : ∀ g, faultCondition i s g ↔ g = .keyIndexOutOfRange ∧ 15 < (s.getV x).toNat) :
    FaultsOnCondition i s (orRaise s .keyIndexOutOfRange i ((keyIndex (s.getV x)).map fun k => s.skipIf (c k))) := by
  refine faultsOnCondition_orRaise hrow (Option.map_eq_none_iff.trans keyIndex_eq_none) fun u hu => ?_
  obtain ⟨k, -, rfl⟩ := Option.map_eq_some_iff.1 hu
  exact StateItems.skipIf_fault s (c k)

/-- A store through I of as many bytes as the instruction accesses. -/
theorem faultsOnCondition_store {xs : List Byte} (hlen : accessLen i s = some xs.length)
    (hrow : ∀ g, faultCondition i s g ↔ g = .dataOutOfRange ∧ accessesBeyondMemory i s) :
    FaultsOnCondition i s (orRaise s .dataOutOfRange i (s.storeRun (s.effAddr 0) xs)) := by
  refine faultsOnCondition_orRaise hrow (State.storeRun_eq_none.trans (accessesBeyondMemory_iff hlen).symm) fun u hu => ?_
  obtain ⟨-, rfl⟩ := State.storeRun_eq_some hu
  rfl

/-- A use, FAULT left alone, of as many bytes from I as the instruction accesses. -/
theorem faultsOnCondition_load {len : Nat} {g : List Byte → State} (hlen : accessLen i s = some len)
    (hrow : ∀ g, faultCondition i s g ↔ g = .dataOutOfRange ∧ accessesBeyondMemory i s)
    (hg : ∀ bs, (g bs).fault = s.fault) :
    FaultsOnCondition i s (orRaise s .dataOutOfRange i ((s.loadRun (s.effAddr 0) len).map g)) := by
  refine faultsOnCondition_orRaise hrow
    (Option.map_eq_none_iff.trans (State.loadRun_eq_none.trans (accessesBeyondMemory_iff hlen).symm)) fun u hu => ?_
  obtain ⟨bs, -, rfl⟩ := Option.map_eq_some_iff.1 hu
  exact hg bs

theorem execLdVxK_eq_next (x : Reg) (s : State) : ∃ t, execLdVxK x s = .next t ∧ t.fault = s.fault := by
  unfold execLdVxK
  split <;> exact ⟨_, rfl, rfl⟩

/-- Every instruction completes or faults as the table of R150 says. -/
theorem faultsOnCondition_exec (i : Instr) (s : State) : FaultsOnCondition i s (exec i s) := by
  cases i with
  | cls | jp | jpV0 | ldVxNn | addVxNn | ldVxVy | orVxVy | andVxVy | xorVxVy | addVxVy | subVxVy | shrVx | subnVxVy
  | shlVx | rndVxNn | ldINnn | addIVx | ldFVx | ldVxDt | ldDtVx | ldStVx | unknown =>
    exact faultsOnCondition_next rfl fun _ => id
  | seVxNn | sneVxNn | seVxVy | sneVxVy => exact faultsOnCondition_next (StateItems.skipIf_fault s _) fun _ => id
  | ldVxK x =>
    obtain ⟨t, ht, hfault⟩ := execLdVxK_eq_next x s
    exact .inl ⟨t, ht, hfault, fun _ => id⟩
  | call nnn => exact faultsOnCondition_call nnn
  | ret => exact faultsOnCondition_ret
  | skpVx => exact faultsOnCondition_keySkip s.keyDown fun _ => Iff.rfl
  | sknpVx => exact faultsOnCondition_keySkip (fun k => !s.keyDown k) fun _ => Iff.rfl
  | ldBVx => exact faultsOnCondition_store rfl fun _ => Iff.rfl
  | ldMemVx x =>
    exact faultsOnCondition_store (congrArg some (length_regsUpTo s x).symm) fun _ => Iff.rfl
  | ldVxMem =>
    exact faultsOnCondition_load rfl (fun _ => Iff.rfl) fun bs => (StateItems.loadRegs_fault_pc s bs 0).1
  | drw => exact faultsOnCondition_load rfl (fun _ => Iff.rfl) fun _ => rfl

/-- Settles O11: an instruction that completes leaves FAULT clear, and one that faults records the fault whose condition
holds. -/
theorem executionFaultsExactlyOnTheirConditions : Obligations.ExecutionFaultsExactlyOnTheirConditions := by
  intro i s hclear
  rcases faultsOnCondition_exec i s with ⟨t, ht, hfault, hno⟩ | ⟨f, ht, hf⟩
  · have hcause : t.fault.cause = none := (congrArg FaultRecord.cause hfault).trans hclear
    exact ⟨t, ht, fun g => by simp [hcause, hno g], fun g hg => absurd hg (hno g)⟩
  · refine ⟨_, ht, fun g => ?_, fun g hg => ?_⟩
    · rw [hf, State.raiseIn_eq, State.raise_fault, Option.some.injEq, eq_comm]
    · rw [(hf g).1 hg]
      rfl

/-! ### The cycle (60_exceptions.md R155, R156) -/

/-- A fault in the execution of a fetched word records the word and the address it was fetched from. -/
theorem advance_raiseIn_decodeWord (s : State) (f : Fault) (op : Word) :
    s.advance.raiseIn f (decodeWord op) = { s with pc := s.pc + 2, fault := ⟨some f, s.pc, op⟩ } := by
  obtain ⟨-, hencode⟩ := Encoding.reads_decodeWord op
  have hpc : s.advance.pc - 2 = s.pc := BitVec.add_sub_cancel _ _
  rw [State.raiseIn_eq, hencode, hpc]
  rfl

/-- Settles O10: an unfaulted cycle ends in the fetch fault or in the execution of the fetched word, which completes or
faults on its condition. -/
theorem cycleCompletesOrFaultsPrecisely : Obligations.CycleCompletesOrFaultsPrecisely := by
  intro s hclear
  rcases step_cases s with ⟨hf, -⟩ | ⟨-, hpc, hs⟩ | ⟨op, -, -, hfetch, hs⟩
  · simp [State.faulted_eq_false.2 hclear] at hf
  · exact ⟨_, hs, .inr (.inl ⟨hpc, rfl⟩)⟩
  · rcases faultsOnCondition_exec (decodeWord op) s.advance with ⟨t, ht, hfault, -⟩ | ⟨f, ht, hf⟩
    · exact ⟨t, hs.trans ht, .inl hfault⟩
    · have hcond : faultCondition (decodeWord op) s f := (Scope.faultCondition_congr rfl rfl rfl _ f).1 ((hf f).2 rfl)
      exact ⟨_, hs.trans ht, .inr (.inr ⟨f, op, hfetch, hcond, advance_raiseIn_decodeWord s f op⟩)⟩

/-! ### The tick of the timers (60_exceptions.md R163) -/

theorem tickTimers_eq_set (hf : s.faulted = false) :
    s.tickTimers = (s.setDt (tickDown s.dt)).setSt (tickDown s.st) := State.tickTimers_of_running hf

theorem onlyChanges_setDt_setSt (s : State) (b c : Byte) : OnlyChanges s ((s.setDt b).setSt c) [.dt, .st] := by
  intro it hit
  obtain ⟨hdt, hst⟩ : it ≠ .dt ∧ it ≠ .st := by simpa using hit
  exact StateItems.same_trans (StateItems.same_setDt hdt b) (StateItems.same_setSt hst c)

/-- Settles O57: a tick of an unfaulted core is one write to DT and one to ST. -/
theorem tickDecrementsNonzeroTimers : Obligations.TickDecrementsNonzeroTimers := by
  refine ⟨fun s hclear => ?_, fun s hfault => State.tickTimers_of_faulted (Option.isSome_iff_ne_none.2 hfault)⟩
  rw [tickTimers_eq_set (State.faulted_eq_false.2 hclear)]
  exact ⟨tickDown_toNat s.dt, tickDown_toNat s.st, rfl, onlyChanges_setDt_setSt s _ _⟩

/-- A timer after `n` ticks: minus `n`, floor at zero. -/
theorem iterate_tickDown_toNat (n : Nat) (b : Byte) : (tickDown^[n] b).toNat = b.toNat - n := by
  induction n with
  | zero => rfl
  | succ n ih => rw [Function.iterate_succ_apply', tickDown_toNat, ih, Nat.sub_sub]

theorem iterate_tickDown_eq_zero {n : Nat} (hn : 255 ≤ n) (b : Byte) : tickDown^[n] b = 0 := by
  have hb := b.isLt
  refine BitVec.eq_of_toNat_eq ?_
  rw [iterate_tickDown_toNat]
  exact Nat.sub_eq_zero_of_le (by omega)

/-- `n` ticks of an unfaulted core are `n` ticks of each timer. -/
theorem iterate_tickTimers (hf : s.faulted = false) (n : Nat) :
    State.tickTimers^[n] s = (s.setDt (tickDown^[n] s.dt)).setSt (tickDown^[n] s.st) := by
  induction n with
  | zero => rfl
  | succ n ih =>
    simp only [Function.iterate_succ_apply', ih]
    exact tickTimers_eq_set hf

/-- Settles O58: each timer is at most 255 and loses 1 per tick until it is 0. -/
theorem enoughTicksDrainBothTimers : Obligations.EnoughTicksDrainBothTimers := by
  intro s n hclear hn
  rw [iterate_tickTimers (State.faulted_eq_false.2 hclear), iterate_tickDown_eq_zero hn, iterate_tickDown_eq_zero hn]
  rfl

/-! ### A faulted state (60_exceptions.md R157) -/

/-- A load that fits is a store from 0x200. -/
theorem storeRun_progBase_of_fits {bytes : List Byte} (h : bytes.length ≤ 3584) :
    s.storeRun 0x200 bytes = some (s.load bytes).2 := by
  rw [State.load_of_fits h]
  exact if_pos (inMemory_iff.2 (.inr (by rw [Config.memSize]; omega)))

theorem load_fault (s : State) (bytes : List Byte) : (s.load bytes).2.fault = s.fault := by
  rw [State.load_eq]

/-- In a faulted state no operation but `reset` writes FAULT. -/
theorem fault_of_applyOp (hf : s.faulted = true) {op : HostOp} (hop : op ≠ .reset) (h : applyOp s op = .next t) :
    t.fault = s.fault := by
  cases op with
  | reset => exact absurd rfl hop
  | load bytes => exact Host.Outcome.next.inj h ▸ load_fault s bytes
  | cycle =>
    obtain rfl : s = t := Host.Outcome.next.inj ((Cycle.step_of_faulted hf).symm.trans h)
    rfl
  | tickTimers =>
    obtain rfl : s.tickTimers = t := Host.Outcome.next.inj h
    rw [State.tickTimers_of_faulted hf]
  | setKey k down => exact Host.Outcome.next.inj h ▸ rfl

/-- Settles O9: a faulted state is frozen, a load is a store of its bytes that leaves FAULT, and `reset` clears FAULT. -/
theorem onlyResetLeavesAFault : Obligations.OnlyResetLeavesAFault := by
  intro s hfault
  have hf : s.faulted = true := Option.isSome_iff_ne_none.2 hfault
  refine ⟨Cycle.step_of_faulted hf, State.tickTimers_of_faulted hf, load_fault s, fun bytes hwf hfits => ?_,
    fun bytes hlong => State.load_of_long hlong, fun op t hop h => fault_of_applyOp hf hop h, rfl,
    State.hostReset_fault s⟩
  have hstore := storeRun_progBase_of_fits (s := s) hfits
  exact ⟨congrArg Prod.fst (State.load_of_fits hfits), fun _ hk => State.readByte_storeRun_inside hwf hstore hk,
    fun _ ha => State.readByte_storeRun_outside hstore ha⟩

end Sys2Proof.Exceptions
end

section
/-! PROOFS. The family 70_reset_and_hazards.md: `load` copies the image or refuses it (O60). -/

open Sys2Proof Sys2Proof.Machine

namespace Sys2Proof.ResetAndHazards

/-- A load writes no item but bytes of memory (70_reset_and_hazards.md R186). -/
theorem same_load {it : Item} (hit : ∀ a, it ≠ .mem a) (s : State) (bytes : List Byte) :
    it.same s (s.load bytes).2 := by
  rw [State.load_eq]
  cases it with
  | mem a => exact absurd rfl (hit a)
  | _ => rfl

/-- Settles O60: a load that fits is a store of the image from 0x200, and a longer one is refused. -/
theorem loadCopiesVerbatimOrRefuses : Obligations.LoadCopiesVerbatimOrRefuses := by
  refine ⟨fun s bytes hwf hfits => ?_, fun s bytes hlong => State.load_of_long hlong⟩
  have hstore : s.storeRun 0x200 bytes = some (s.load bytes).2 := Exceptions.storeRun_progBase_of_fits hfits
  have hstatus : (s.load bytes).1 = .ok := congrArg Prod.fst (State.load_of_fits hfits)
  have hpc : (s.load bytes).2.pc = s.pc := by rw [State.load_eq]
  exact ⟨hstatus, fun _ hk => State.readByte_storeRun_inside hwf hstore hk,
    fun _ ha => State.readByte_storeRun_outside hstore ha, hpc, fun _ hit => same_load hit s bytes⟩

end Sys2Proof.ResetAndHazards
end
